-- ==== Sys2Proof/Word.lean ====
section
/-! DEFINITION. The machine's words: register, pc and address patterns (00_scope.md R11, R13), bytes of memory
(20_memory.md R40) and register numbers (00_scope.md R11, "5-bit indices"). -/

namespace Sys2Proof

/-- A 32-bit pattern: a register's contents, an address, the pc, an instruction word (R13, "u32"). -/
abbrev Word := BitVec 32

/-- One byte of memory (20_memory.md R40). -/
abbrev Byte := BitVec 8

/-- A register number: the 5-bit rd, rs1 or rs2 field of an instruction (10_state.md R20). -/
abbrev RegIdx := BitVec 5

end Sys2Proof
end

