-- ==== Sys2Proof/Syntax.lean ====
section
/-! DEFINITION. The instructions: one constructor per row of spec/opcode_table.json, in the table's order, with the
operands its format gives it (30_encoding.md R71, R78). Where a branch or jump offset has an implicit bit 0, the whole
offset is the operand, and WellFormed asks that it be even. -/

namespace Sys2Proof

/-- An instruction of 30_encoding.md R81. `imm` is the 12-bit I- or S-immediate field, `imm20` is w[31:12] of a U format,
`off` is the 13-bit B- or 21-bit J-offset before sign extension (R72 to R76). -/
inductive Instr where
  | lui (rd : RegIdx) (imm20 : BitVec 20)
  | auipc (rd : RegIdx) (imm20 : BitVec 20)
  | jal (rd : RegIdx) (off : BitVec 21)
  | jalr (rd rs1 : RegIdx) (imm : BitVec 12)
  | beq (rs1 rs2 : RegIdx) (off : BitVec 13)
  | bne (rs1 rs2 : RegIdx) (off : BitVec 13)
  | blt (rs1 rs2 : RegIdx) (off : BitVec 13)
  | bge (rs1 rs2 : RegIdx) (off : BitVec 13)
  | bltu (rs1 rs2 : RegIdx) (off : BitVec 13)
  | bgeu (rs1 rs2 : RegIdx) (off : BitVec 13)
  | lb (rd rs1 : RegIdx) (imm : BitVec 12)
  | lh (rd rs1 : RegIdx) (imm : BitVec 12)
  | lw (rd rs1 : RegIdx) (imm : BitVec 12)
  | lbu (rd rs1 : RegIdx) (imm : BitVec 12)
  | lhu (rd rs1 : RegIdx) (imm : BitVec 12)
  | sb (rs1 rs2 : RegIdx) (imm : BitVec 12)
  | sh (rs1 rs2 : RegIdx) (imm : BitVec 12)
  | sw (rs1 rs2 : RegIdx) (imm : BitVec 12)
  | addi (rd rs1 : RegIdx) (imm : BitVec 12)
  | slti (rd rs1 : RegIdx) (imm : BitVec 12)
  | sltiu (rd rs1 : RegIdx) (imm : BitVec 12)
  | xori (rd rs1 : RegIdx) (imm : BitVec 12)
  | ori (rd rs1 : RegIdx) (imm : BitVec 12)
  | andi (rd rs1 : RegIdx) (imm : BitVec 12)
  | slli (rd rs1 : RegIdx) (shamt : BitVec 5)
  | srli (rd rs1 : RegIdx) (shamt : BitVec 5)
  | srai (rd rs1 : RegIdx) (shamt : BitVec 5)
  | add (rd rs1 rs2 : RegIdx)
  | sub (rd rs1 rs2 : RegIdx)
  | sll (rd rs1 rs2 : RegIdx)
  | slt (rd rs1 rs2 : RegIdx)
  | sltu (rd rs1 rs2 : RegIdx)
  | xor (rd rs1 rs2 : RegIdx)
  | srl (rd rs1 rs2 : RegIdx)
  | sra (rd rs1 rs2 : RegIdx)
  | or (rd rs1 rs2 : RegIdx)
  | and (rd rs1 rs2 : RegIdx)
  /-- Every MISC-MEM word (48_misc_mem_system.md R260); the bits are kept and ignored. -/
  | fence (fm pred succ : BitVec 4) (rs1 : RegIdx) (funct3 : BitVec 3) (rd : RegIdx)
  | ecall
  | ebreak
  /-- Every SYSTEM word but ECALL and EBREAK (R264); the bits are kept and ignored. -/
  | system (funct12 : BitVec 12) (rs1 : RegIdx) (funct3 : BitVec 3) (rd : RegIdx)
  deriving DecidableEq, Repr

end Sys2Proof
end

