-- ==== Sys2Proof/WellFormed.lean ====
section
/-! DEFINITION. Which terms of Instr stand for a word: offsets are even (30_encoding.md R77: bit 0 is 0 "by construction
of which bits are copied"), and `system` is not the ECALL or the EBREAK word (R81, "not ECALL, not EBREAK"). Every other
operand fills its field exactly, so nothing else needs a check. -/

namespace Sys2Proof

/-- A B- or J-offset has bit 0 clear (30_encoding.md R74, R76, R77). -/
def evenOffset {n : Nat} (off : BitVec n) : Bool := !off.getLsbD 0

/-- The fields of a `system` term are those of neither the ECALL word nor the EBREAK word (48_misc_mem_system.md R264). -/
def plainSystem (funct12 : BitVec 12) (rs1 : RegIdx) (funct3 : BitVec 3) (rd : RegIdx) : Bool :=
  !(rs1 == 0 && funct3 == 0 && rd == 0 && (funct12 == 0 || funct12 == 1))

/-- The terms that some instruction word decodes to. -/
def Instr.wellFormed : Instr → Bool
  | .jal _ off => evenOffset off
  | .beq _ _ off | .bne _ _ off | .blt _ _ off | .bge _ _ off | .bltu _ _ off | .bgeu _ _ off => evenOffset off
  | .system funct12 rs1 funct3 rd => plainSystem funct12 rs1 funct3 rd
  | .lui _ _ | .auipc _ _ | .jalr _ _ _ => true
  | .lb _ _ _ | .lh _ _ _ | .lw _ _ _ | .lbu _ _ _ | .lhu _ _ _ => true
  | .sb _ _ _ | .sh _ _ _ | .sw _ _ _ => true
  | .addi _ _ _ | .slti _ _ _ | .sltiu _ _ _ | .xori _ _ _ | .ori _ _ _ | .andi _ _ _ => true
  | .slli _ _ _ | .srli _ _ _ | .srai _ _ _ => true
  | .add _ _ _ | .sub _ _ _ | .sll _ _ _ | .slt _ _ _ | .sltu _ _ _ => true
  | .xor _ _ _ | .srl _ _ _ | .sra _ _ _ | .or _ _ _ | .and _ _ _ => true
  | .fence _ _ _ _ _ _ | .ecall | .ebreak => true

end Sys2Proof
end

