-- ==== Sys2Proof/Decode.lean ====
section
/-! DEFINITION. The decoder of 30_encoding.md R82, total on any word and any bytes, and the encoder of the same
formats (R71). The opcode, funct3 and funct7 numbers are the spec's, which takes them from general knowledge (R80, R81;
UNVERIFIED, notes/assumptions/9.md). -/

namespace Sys2Proof

/-- Why no instruction is read. All but `truncated` are the unrecognized encodings of 30_encoding.md R83, one name for
each item of its list; they are no stop (40_step_cycle.md R106). `truncated`: fewer than four bytes were given. -/
inductive Reject where
  | truncated
  | opcode        -- an opcode that is none of the eleven of R80
  | jalrFunct3
  | branchFunct3
  | loadFunct3
  | storeFunct3
  | shiftFunct7   -- an OP-IMM shift with another funct7
  | opFunct7      -- an OP word with another funct7
  deriving DecidableEq, Repr

/-! ## Fields (30_encoding.md R70) -/

def opcodeOf (w : Word) : BitVec 7 := w.extractLsb' 0 7
def rdOf (w : Word) : RegIdx := w.extractLsb' 7 5
def funct3Of (w : Word) : BitVec 3 := w.extractLsb' 12 3
def rs1Of (w : Word) : RegIdx := w.extractLsb' 15 5
def rs2Of (w : Word) : RegIdx := w.extractLsb' 20 5
def funct7Of (w : Word) : BitVec 7 := w.extractLsb' 25 7

/-! ## Immediate fields (30_encoding.md R72 to R76), before sign extension -/

/-- w[31:20] (R72). -/
def immIOf (w : Word) : BitVec 12 := w.extractLsb' 20 12

/-- w[31:25], w[11:7] (R73). -/
def immSOf (w : Word) : BitVec 12 := w.extractLsb' 25 7 ++ w.extractLsb' 7 5

/-- w[31], w[7], w[30:25], w[11:8], 0 (R74). -/
def immBOf (w : Word) : BitVec 13 :=
  w.extractLsb' 31 1 ++ w.extractLsb' 7 1 ++ w.extractLsb' 25 6 ++ w.extractLsb' 8 4 ++ 0#1

/-- w[31:12] (R75). -/
def immUOf (w : Word) : BitVec 20 := w.extractLsb' 12 20

/-- w[31], w[19:12], w[20], w[30:21], 0 (R76). -/
def immJOf (w : Word) : BitVec 21 :=
  w.extractLsb' 31 1 ++ w.extractLsb' 12 8 ++ w.extractLsb' 20 1 ++ w.extractLsb' 21 10 ++ 0#1

/-! ## The decoder, one function per opcode class (30_encoding.md R81, R82) -/

def decodeJalr (w : Word) : Except Reject Instr :=
  if funct3Of w = 0#3 then .ok (.jalr (rdOf w) (rs1Of w) (immIOf w)) else .error .jalrFunct3

def decodeBranch (w : Word) : Except Reject Instr :=
  if funct3Of w = 0#3 then .ok (.beq (rs1Of w) (rs2Of w) (immBOf w))
  else if funct3Of w = 1#3 then .ok (.bne (rs1Of w) (rs2Of w) (immBOf w))
  else if funct3Of w = 4#3 then .ok (.blt (rs1Of w) (rs2Of w) (immBOf w))
  else if funct3Of w = 5#3 then .ok (.bge (rs1Of w) (rs2Of w) (immBOf w))
  else if funct3Of w = 6#3 then .ok (.bltu (rs1Of w) (rs2Of w) (immBOf w))
  else if funct3Of w = 7#3 then .ok (.bgeu (rs1Of w) (rs2Of w) (immBOf w))
  else .error .branchFunct3

def decodeLoad (w : Word) : Except Reject Instr :=
  if funct3Of w = 0#3 then .ok (.lb (rdOf w) (rs1Of w) (immIOf w))
  else if funct3Of w = 1#3 then .ok (.lh (rdOf w) (rs1Of w) (immIOf w))
  else if funct3Of w = 2#3 then .ok (.lw (rdOf w) (rs1Of w) (immIOf w))
  else if funct3Of w = 4#3 then .ok (.lbu (rdOf w) (rs1Of w) (immIOf w))
  else if funct3Of w = 5#3 then .ok (.lhu (rdOf w) (rs1Of w) (immIOf w))
  else .error .loadFunct3

/-- The S-immediate is a store's (90_conflicts.md C1). -/
def decodeStore (w : Word) : Except Reject Instr :=
  if funct3Of w = 0#3 then .ok (.sb (rs1Of w) (rs2Of w) (immSOf w))
  else if funct3Of w = 1#3 then .ok (.sh (rs1Of w) (rs2Of w) (immSOf w))
  else if funct3Of w = 2#3 then .ok (.sw (rs1Of w) (rs2Of w) (immSOf w))
  else .error .storeFunct3

/-- "funct7 high bit" is instruction bit 30 of an exact funct7 match (90_conflicts.md C4, 46_alu_immediate.md R210). -/
def decodeOpImm (w : Word) : Except Reject Instr :=
  if funct3Of w = 0#3 then .ok (.addi (rdOf w) (rs1Of w) (immIOf w))
  else if funct3Of w = 2#3 then .ok (.slti (rdOf w) (rs1Of w) (immIOf w))
  else if funct3Of w = 3#3 then .ok (.sltiu (rdOf w) (rs1Of w) (immIOf w))
  else if funct3Of w = 4#3 then .ok (.xori (rdOf w) (rs1Of w) (immIOf w))
  else if funct3Of w = 6#3 then .ok (.ori (rdOf w) (rs1Of w) (immIOf w))
  else if funct3Of w = 7#3 then .ok (.andi (rdOf w) (rs1Of w) (immIOf w))
  else if funct3Of w = 1#3 then
    if funct7Of w = 0x00#7 then .ok (.slli (rdOf w) (rs1Of w) (rs2Of w)) else .error .shiftFunct7
  else if funct7Of w = 0x00#7 then .ok (.srli (rdOf w) (rs1Of w) (rs2Of w))
  else if funct7Of w = 0x20#7 then .ok (.srai (rdOf w) (rs1Of w) (rs2Of w))
  else .error .shiftFunct7

def decodeOp (w : Word) : Except Reject Instr :=
  if funct7Of w = 0x00#7 then
    if funct3Of w = 0#3 then .ok (.add (rdOf w) (rs1Of w) (rs2Of w))
    else if funct3Of w = 1#3 then .ok (.sll (rdOf w) (rs1Of w) (rs2Of w))
    else if funct3Of w = 2#3 then .ok (.slt (rdOf w) (rs1Of w) (rs2Of w))
    else if funct3Of w = 3#3 then .ok (.sltu (rdOf w) (rs1Of w) (rs2Of w))
    else if funct3Of w = 4#3 then .ok (.xor (rdOf w) (rs1Of w) (rs2Of w))
    else if funct3Of w = 5#3 then .ok (.srl (rdOf w) (rs1Of w) (rs2Of w))
    else if funct3Of w = 6#3 then .ok (.or (rdOf w) (rs1Of w) (rs2Of w))
    else .ok (.and (rdOf w) (rs1Of w) (rs2Of w))
  else if funct7Of w = 0x20#7 then
    if funct3Of w = 0#3 then .ok (.sub (rdOf w) (rs1Of w) (rs2Of w))
    else if funct3Of w = 5#3 then .ok (.sra (rdOf w) (rs1Of w) (rs2Of w))
    else .error .opFunct7
  else .error .opFunct7

/-- ECALL and EBREAK are tested before the catch-all (30_encoding.md R82). -/
def decodeSystem (w : Word) : Except Reject Instr :=
  if w = 0x00000073#32 then .ok .ecall
  else if w = 0x00100073#32 then .ok .ebreak
  else .ok (.system (immIOf w) (rs1Of w) (funct3Of w) (rdOf w))

/-- Every word of the class is FENCE (48_misc_mem_system.md R260). -/
def decodeFence (w : Word) : Except Reject Instr :=
  .ok (.fence (w.extractLsb' 28 4) (w.extractLsb' 24 4) (w.extractLsb' 20 4) (rs1Of w) (funct3Of w) (rdOf w))

/-- The decoder of 30_encoding.md R82: a pure function of the word (40_step_cycle.md R102). `.error` is its
`Unrecognized`, with the item of R83's list that says why. -/
def decode (w : Word) : Except Reject Instr :=
  if opcodeOf w = 0x37#7 then .ok (.lui (rdOf w) (immUOf w))
  else if opcodeOf w = 0x17#7 then .ok (.auipc (rdOf w) (immUOf w))
  else if opcodeOf w = 0x6F#7 then .ok (.jal (rdOf w) (immJOf w))
  else if opcodeOf w = 0x67#7 then decodeJalr w
  else if opcodeOf w = 0x63#7 then decodeBranch w
  else if opcodeOf w = 0x03#7 then decodeLoad w
  else if opcodeOf w = 0x23#7 then decodeStore w
  else if opcodeOf w = 0x13#7 then decodeOpImm w
  else if opcodeOf w = 0x33#7 then decodeOp w
  else if opcodeOf w = 0x0F#7 then decodeFence w
  else if opcodeOf w = 0x73#7 then decodeSystem w
  else .error .opcode

/-- The instruction word of four bytes in memory order: little-endian (20_memory.md R46). -/
def wordOfBytes (b0 b1 b2 b3 : Byte) : Word := b3 ++ b2 ++ b1 ++ b0

/-- The four bytes of a word in memory order (20_memory.md R46). -/
def bytesOfWord (w : Word) : List Byte :=
  [w.extractLsb' 0 8, w.extractLsb' 8 8, w.extractLsb' 16 8, w.extractLsb' 24 8]

/-- One instruction from the front of a list of bytes, with the rest of the list: every instruction is four bytes
(30_encoding.md R87). -/
def decodeBytes : List Byte → Except Reject (Instr × List Byte)
  | b0 :: b1 :: b2 :: b3 :: rest =>
    match decode (wordOfBytes b0 b1 b2 b3) with
    | .ok i => .ok (i, rest)
    | .error r => .error r
  | _ => .error .truncated

/-- The low `nbits` bits of `w`, numbered as spec/opcode_table.json numbers them, as one instruction word: every bit
above `nbits` is 0. -/
def tableWord (nbits w : Nat) : Word := BitVec.ofNat 32 (w % 2 ^ nbits)

/-- What the decoder reads from the bytes of a table word, laid out as memory holds them. -/
def decodeTableWord (nbits w : Nat) : Option Instr :=
  match decodeBytes (bytesOfWord (tableWord nbits w)) with
  | .ok (i, _) => some i
  | .error _ => none

/-! ## The encoder: the formats of 30_encoding.md R71, bit 31 first -/

def encodeR (funct7 : BitVec 7) (rs2 rs1 : RegIdx) (funct3 : BitVec 3) (rd : RegIdx) (op : BitVec 7) : Word :=
  funct7 ++ rs2 ++ rs1 ++ funct3 ++ rd ++ op

def encodeI (imm : BitVec 12) (rs1 : RegIdx) (funct3 : BitVec 3) (rd : RegIdx) (op : BitVec 7) : Word :=
  imm ++ rs1 ++ funct3 ++ rd ++ op

def encodeS (imm : BitVec 12) (rs2 rs1 : RegIdx) (funct3 : BitVec 3) (op : BitVec 7) : Word :=
  imm.extractLsb' 5 7 ++ rs2 ++ rs1 ++ funct3 ++ imm.extractLsb' 0 5 ++ op

def encodeB (off : BitVec 13) (rs2 rs1 : RegIdx) (funct3 : BitVec 3) (op : BitVec 7) : Word :=
  off.extractLsb' 12 1 ++ off.extractLsb' 5 6 ++ rs2 ++ rs1 ++ funct3 ++ off.extractLsb' 1 4 ++ off.extractLsb' 11 1 ++ op

def encodeU (imm20 : BitVec 20) (rd : RegIdx) (op : BitVec 7) : Word :=
  imm20 ++ rd ++ op

def encodeJ (off : BitVec 21) (rd : RegIdx) (op : BitVec 7) : Word :=
  off.extractLsb' 20 1 ++ off.extractLsb' 1 10 ++ off.extractLsb' 11 1 ++ off.extractLsb' 12 8 ++ rd ++ op

/-- The word of an instruction (30_encoding.md R71, R80, R81). A term that is not well-formed has no word; what `encode`
gives for it (the odd bit of an offset dropped) stands for nothing. -/
def encode : Instr → Word
  | .lui rd imm20 => encodeU imm20 rd 0x37#7
  | .auipc rd imm20 => encodeU imm20 rd 0x17#7
  | .jal rd off => encodeJ off rd 0x6F#7
  | .jalr rd rs1 imm => encodeI imm rs1 0#3 rd 0x67#7
  | .beq rs1 rs2 off => encodeB off rs2 rs1 0#3 0x63#7
  | .bne rs1 rs2 off => encodeB off rs2 rs1 1#3 0x63#7
  | .blt rs1 rs2 off => encodeB off rs2 rs1 4#3 0x63#7
  | .bge rs1 rs2 off => encodeB off rs2 rs1 5#3 0x63#7
  | .bltu rs1 rs2 off => encodeB off rs2 rs1 6#3 0x63#7
  | .bgeu rs1 rs2 off => encodeB off rs2 rs1 7#3 0x63#7
  | .lb rd rs1 imm => encodeI imm rs1 0#3 rd 0x03#7
  | .lh rd rs1 imm => encodeI imm rs1 1#3 rd 0x03#7
  | .lw rd rs1 imm => encodeI imm rs1 2#3 rd 0x03#7
  | .lbu rd rs1 imm => encodeI imm rs1 4#3 rd 0x03#7
  | .lhu rd rs1 imm => encodeI imm rs1 5#3 rd 0x03#7
  | .sb rs1 rs2 imm => encodeS imm rs2 rs1 0#3 0x23#7
  | .sh rs1 rs2 imm => encodeS imm rs2 rs1 1#3 0x23#7
  | .sw rs1 rs2 imm => encodeS imm rs2 rs1 2#3 0x23#7
  | .addi rd rs1 imm => encodeI imm rs1 0#3 rd 0x13#7
  | .slti rd rs1 imm => encodeI imm rs1 2#3 rd 0x13#7
  | .sltiu rd rs1 imm => encodeI imm rs1 3#3 rd 0x13#7
  | .xori rd rs1 imm => encodeI imm rs1 4#3 rd 0x13#7
  | .ori rd rs1 imm => encodeI imm rs1 6#3 rd 0x13#7
  | .andi rd rs1 imm => encodeI imm rs1 7#3 rd 0x13#7
  | .slli rd rs1 shamt => encodeR 0x00#7 shamt rs1 1#3 rd 0x13#7
  | .srli rd rs1 shamt => encodeR 0x00#7 shamt rs1 5#3 rd 0x13#7
  | .srai rd rs1 shamt => encodeR 0x20#7 shamt rs1 5#3 rd 0x13#7
  | .add rd rs1 rs2 => encodeR 0x00#7 rs2 rs1 0#3 rd 0x33#7
  | .sub rd rs1 rs2 => encodeR 0x20#7 rs2 rs1 0#3 rd 0x33#7
  | .sll rd rs1 rs2 => encodeR 0x00#7 rs2 rs1 1#3 rd 0x33#7
  | .slt rd rs1 rs2 => encodeR 0x00#7 rs2 rs1 2#3 rd 0x33#7
  | .sltu rd rs1 rs2 => encodeR 0x00#7 rs2 rs1 3#3 rd 0x33#7
  | .xor rd rs1 rs2 => encodeR 0x00#7 rs2 rs1 4#3 rd 0x33#7
  | .srl rd rs1 rs2 => encodeR 0x00#7 rs2 rs1 5#3 rd 0x33#7
  | .sra rd rs1 rs2 => encodeR 0x20#7 rs2 rs1 5#3 rd 0x33#7
  | .or rd rs1 rs2 => encodeR 0x00#7 rs2 rs1 6#3 rd 0x33#7
  | .and rd rs1 rs2 => encodeR 0x00#7 rs2 rs1 7#3 rd 0x33#7
  | .fence fm pred succ rs1 funct3 rd => encodeI (fm ++ pred ++ succ) rs1 funct3 rd 0x0F#7
  | .ecall => 0x00000073#32
  | .ebreak => 0x00100073#32
  | .system funct12 rs1 funct3 rd => encodeI funct12 rs1 funct3 rd 0x73#7

/-- The bytes of an instruction in memory order. -/
def encodeBytes (i : Instr) : List Byte := bytesOfWord (encode i)

end Sys2Proof
end

