-- ==== Sys2Proof/Config.lean ====
section
/-! DEFINITION. What is fixed for one launch of the block (00_scope.md R12), and the model's free values. -/

namespace Sys2Proof

/-- What an unrecognized encoding does (00_scope.md R12; 40_step_cycle.md R106). -/
inductive IllegalPolicy where
  | nop    -- the word advances the pc and does nothing else
  | fault  -- the step raises Unrecognized(w)
  deriving DecidableEq, Repr

/-- The parameters of one launch (00_scope.md R12). They never change after construction; State carries them
(DESIGN CHOICE, notes/assumptions/1.md), so a claim over every state is a claim over every parameter value. -/
structure Config where
  /-- `MEM_SIZE`, the capacity in bytes, 0 to 2^32 (R12, 20_memory.md R40, R52). -/
  memSize : Nat
  /-- `X0_HARDWIRED` (10_state.md R22). -/
  x0Hardwired : Bool
  /-- `LOAD_SIGN_EXTEND` (44_loads.md R161). -/
  loadSignExtend : Bool
  /-- `ILLEGAL_POLICY` (40_step_cycle.md R106). -/
  illegalPolicy : IllegalPolicy
  /-- `JALR_LINK_FIRST` (42_jumps.md R133). -/
  jalrLinkFirst : Bool
  deriving DecidableEq, Repr

/-- The defaults of 00_scope.md R12, for a memory of `memSize` bytes (`MEM_SIZE` has no default there). -/
def Config.default (memSize : Nat) : Config where
  memSize := memSize
  x0Hardwired := false
  loadSignExtend := false
  illegalPolicy := .nop
  jalrLinkFirst := true

/-- The largest capacity the spec allows: 2^32 bytes (20_memory.md R52). -/
def Config.maxMemSize : Nat := 4294967296

/-- FREE VALUE (20_memory.md R44; DESIGN CHOICE of its form, notes/assumptions/6.md): whether the write that fails
part-way as number `draw` has stored its byte number `k`. It has no body, so nothing can be proved of its value. -/
opaque Config.storeDraw (draw k : Nat) : Bool

end Sys2Proof
end

