-- ==== Sys2Proof/Machine/State.lean ====
section
/-! DEFINITION. Everything the spec gives the machine (10_state.md, the table at its head), as plain data; the reasons a
step stops; the state right after reset. -/

namespace Sys2Proof.Machine

/-- What a memory operation of the core is for (60_exceptions.md R280). -/
inductive AccessKind where
  | fetch
  | load
  | store
  deriving DecidableEq, Repr

/-- The widths of an access (00_scope.md R11: 8, 16, 32 bits). -/
inductive Width where
  | byte
  | half
  | word
  deriving DecidableEq, Repr

/-- The fault record of 60_exceptions.md R281: what `Step` gives the host as `Fault(f)`. -/
inductive FaultRecord where
  /-- A fetch, load or store whose bytes are not all below `MEM_SIZE` (R280). -/
  | outOfRange (kind : AccessKind) (addr : Word) (n : Width)
  /-- An unrecognized word under `ILLEGAL_POLICY = FAULT` (R282). -/
  | unrecognized (w : Word)
  deriving DecidableEq, Repr

/-- `status` (10_state.md R31): a modelling variable of the spec, which no instruction reads. -/
inductive Status where
  | running
  | faulted (f : FaultRecord)
  deriving DecidableEq, Repr

/-- Memory: the bytes that differ from 0x00, by address. An unlisted address reads as 0x00, what construction fills
memory with (70_reset_and_hazards.md R300; notes/assumptions/5.md). Addresses from `MEM_SIZE` on do not exist. -/
abbrev Memory := List Host.Cell

/-- From address `lo` on: addresses strictly rising, and no byte listed that is 0x00. -/
def Memory.wfFrom (lo : Nat) : Memory → Bool
  | [] => true
  | (a, v) :: m => decide (lo ≤ a) && v != 0 && Memory.wfFrom (a + 1) m

/-- The one canonical form: equal memories are equal lists. -/
def Memory.wf (m : Memory) : Bool := Memory.wfFrom 0 m

/-- No byte is listed at or beyond the capacity (20_memory.md R40: `MEM[0]` to `MEM[MEM_SIZE-1]`). -/
def Memory.within (size : Nat) (m : Memory) : Bool := m.all fun c => decide (c.1 < size)

/-- The state of the block. -/
structure State where
  /-- The launch parameters (00_scope.md R12), which no step changes. -/
  cfg : Config
  /-- `REG[0..31]` (10_state.md R20). Reads and writes go through `State.reg` and `State.writeReg`. -/
  regs : Vector Word 32
  /-- The program counter (10_state.md R26): any 32-bit value, odd and out-of-range ones included. -/
  pc : Word
  /-- `MEM` (20_memory.md R40). -/
  mem : Memory
  /-- Running or Faulted(f) (10_state.md R31). -/
  status : Status
  /-- The MODEL's own field: how many partly failed writes have drawn free values (notes/assumptions/6.md). -/
  draws : Nat
  deriving DecidableEq, Repr

/-- Why a step stops. -/
inductive Fault where
  /-- `Step` returned `Fault(f)` (60_exceptions.md R280 to R285). Raised by `step` at a fetch out of range and at an
  unrecognized word under `ILLEGAL_POLICY = FAULT`, and by the loads and the stores out of range. `left` is the state the
  fault leaves, `status = Faulted(f)` in it (R284, R285). Safe: the spec itself ends the run here (notes/assumptions/7.md). -/
  | raised (f : FaultRecord) (left : State)
  /-- `Step` called while `status = Faulted(f)`: the spec gives it no meaning and treats it as stuck (R285, 40_step_cycle.md
  R100). Raised by `step` alone. Safe: nothing can be proved of a step after a fault. -/
  | stuck (f : FaultRecord)
  deriving DecidableEq, Repr

/-- Why an instruction has no meaning here. -/
inductive Refusal where
  /-- An instruction whose arm of `exec` is not written yet. Raised by `exec` alone; safe. No arm of this model uses it. -/
  | notModelled (mnemonic : String)
  deriving DecidableEq, Repr

/-- The block right after `Construct` (10_state.md R32, 70_reset_and_hazards.md R300) with no image, no entry point
(`pc` is then 0) and the parameters' defaults. DESIGN CHOICE: `MEM_SIZE` is the largest the spec allows
(notes/assumptions/2.md) and `INIT_REGS` is all zero (notes/assumptions/3.md), neither of which the spec gives. -/
def State.reset : State where
  cfg := Config.default Config.maxMemSize
  regs := Vector.replicate 32 0
  pc := 0
  mem := []
  status := .running
  draws := 0

end Sys2Proof.Machine
end

