-- ==== Sys2Proof/Machine/Ops.lean ====
section
/-! DEFINITION. The named operations over registers, pc and memory, construction, and raising a fault. Every meaning is
written over these. -/

namespace Sys2Proof.Machine

/-- What a step of this machine answers. -/
abbrev Result := Host.Outcome State Fault Refusal

/-! ## Registers and pc -/

/-- `x[i]` (10_state.md R23). -/
def State.reg (s : State) (i : RegIdx) : Word :=
  if s.cfg.x0Hardwired && i == 0 then 0 else s.regs[i.toNat]'i.isLt

/-- `x[i] <- v` (10_state.md R24): with `X0_HARDWIRED` a write of index 0 is discarded. -/
def State.writeReg (s : State) (i : RegIdx) (v : Word) : State :=
  if s.cfg.x0Hardwired && i == 0 then s else { s with regs := s.regs.set i.toNat v i.isLt }

/-- `pc <- t` (00_scope.md R15). -/
def State.setPc (s : State) (t : Word) : State := { s with pc := t }

/-- The address of the next sequential instruction, modulo 2^32 (10_state.md R27; 42_jumps.md R131). -/
def State.nextPc (s : State) : Word := s.pc + 4

/-- The step completes and goes on at `pc + 4` (40_step_cycle.md R104). -/
def advance (s : State) : Result := .next (s.setPc s.nextPc)

/-- The step completes: `rd` takes `v`, then `pc <- pc + 4` (40_step_cycle.md R103). -/
def writeBack (rd : RegIdx) (v : Word) (s : State) : Result := advance (s.writeReg rd v)

/-! ## Memory as data -/

/-- The byte at an address, whatever the capacity: 0x00 where nothing is listed. -/
def Memory.get : Memory → Nat → Byte
  | [], _ => 0
  | (b, v) :: m, a => if a = b then v else Memory.get m a

/-- The memory with byte `a` set, in canonical form: a 0x00 byte is not listed. -/
def Memory.set : Memory → Nat → Byte → Memory
  | [], a, v => if v = 0 then [] else [(a, v)]
  | (b, w) :: m, a, v =>
    if a < b then (if v = 0 then (b, w) :: m else (a, v) :: (b, w) :: m)
    else if a = b then (if v = 0 then m else (a, v) :: m)
    else (b, w) :: Memory.set m a v

/-- The memory that holds `bytes` from address `a` on. -/
def Memory.ofBytes (a : Nat) : List Byte → Memory
  | [] => []
  | v :: rest => if v = 0 then Memory.ofBytes (a + 1) rest else (a, v) :: Memory.ofBytes (a + 1) rest

/-! ## The memory contract (20_memory.md R40 to R43)

Addresses inside one access are natural numbers and do not wrap at 2^32 (R41). `none` is the out-of-range failure. -/

/-- The number of bytes of an access (20_memory.md R49). -/
def Width.bytes : Width → Nat
  | .byte => 1
  | .half => 2
  | .word => 4

def State.readByte (s : State) (a : Nat) : Option Byte :=
  if s.cfg.memSize ≤ a then none else some (s.mem.get a)

/-- Little-endian: the byte at `a` is the low one (R41, R46). -/
def State.readHalfWord (s : State) (a : Nat) : Option (BitVec 16) :=
  match s.readByte a, s.readByte (a + 1) with
  | some lo, some hi => some (hi ++ lo)
  | _, _ => none

def State.readWord (s : State) (a : Nat) : Option Word :=
  match s.readHalfWord a, s.readHalfWord (a + 2) with
  | some lo, some hi => some (hi ++ lo)
  | _, _ => none

/-- `MemRead(a, n)` (R41): the value read, in the low bits of a word. -/
def State.memRead (s : State) (a : Nat) : Width → Option Word
  | .byte => (s.readByte a).map (·.setWidth 32)
  | .half => (s.readHalfWord a).map (·.setWidth 32)
  | .word => s.readWord a

def State.writeByte (s : State) (a : Nat) (v : Byte) : Option State :=
  if s.cfg.memSize ≤ a then none else some { s with mem := s.mem.set a v }

def State.writeHalfWord (s : State) (a : Nat) (v : BitVec 16) : Option State :=
  match s.writeByte a (v.extractLsb' 0 8) with
  | some s' => s'.writeByte (a + 1) (v.extractLsb' 8 8)
  | none => none

def State.writeWord (s : State) (a : Nat) (v : Word) : Option State :=
  match s.writeHalfWord a (v.extractLsb' 0 16) with
  | some s' => s'.writeHalfWord (a + 2) (v.extractLsb' 16 16)
  | none => none

/-- `MemWrite(a, n, v)` (R43) where it completes: the low `8n` bits of `v`. What a failing one leaves is `partialWrite`. -/
def State.memWrite (s : State) (a : Nat) (n : Width) (v : Word) : Option State :=
  match n with
  | .byte => s.writeByte a (v.extractLsb' 0 8)
  | .half => s.writeHalfWord a (v.extractLsb' 0 16)
  | .word => s.writeWord a v

/-- Byte number `k` of `v`: `v[8k+7:8k]` (R43). -/
def byteOf (v : Word) (k : Nat) : Byte := v.extractLsb' (8 * k) 8

/-- A failed write's byte number `k`: where it is in range it holds its old value or `v[8k+7:8k]`, as the free value
says (20_memory.md R44). -/
def State.drawByte (s : State) (a : Nat) (v : Word) (k : Nat) : State :=
  if a + k < s.cfg.memSize ∧ Config.storeDraw s.draws k = true
  then { s with mem := s.mem.set (a + k) (byteOf v k) } else s

/-- What `MemWrite(a, n, v)` leaves when it fails: each in-range byte old or new, drawn per byte (20_memory.md R44). -/
def State.partialWrite (s : State) (a : Nat) (n : Width) (v : Word) : State :=
  let s' := (List.range n.bytes).foldl (fun t k => t.drawByte a v k) s
  { s' with draws := s.draws + 1 }

/-! ## Faults -/

/-- The labels of 60_exceptions.md R281. -/
def FaultRecord.code : FaultRecord → Nat
  | .outOfRange .fetch _ _ => 1
  | .unrecognized _ => 2
  | .outOfRange .load _ _ => 5
  | .outOfRange .store _ _ => 7

/-- `raise f` (40_step_cycle.md R105; 60_exceptions.md R284, R285): the one way a step fails. The state it leaves is the
state so far with `status = Faulted(f)`: nothing is saved, no handler is entered and there is no return (R286, R287). -/
def raise (f : FaultRecord) (s : State) : Result := .fault (.raised f { s with status := .faulted f })

/-! ## Construction -/

/-- `Construct(MEM_SIZE, IMAGE, ENTRY_PC)` with the launch's parameters and `INIT_REGS` (70_reset_and_hazards.md R300):
the image from address 0, cut at the capacity, zeros after it; the pc is 0 where the host gives no entry point. -/
def State.construct (cfg : Config) (image : List Byte) (entryPc : Option Word) (initRegs : Vector Word 32) : State where
  cfg := cfg
  regs := initRegs
  pc := entryPc.getD 0
  mem := Memory.ofBytes 0 (image.take cfg.memSize)
  status := .running
  draws := 0

end Sys2Proof.Machine
end

