-- ==== Sys2Proof/Machine/Operands.lean ====
section
/-! DEFINITION. Every operand form: the immediates' 32-bit values (30_encoding.md R72 to R76), shift amounts (R79),
effective addresses, jump and branch targets, and the extension of a loaded value. -/

namespace Sys2Proof.Machine

/-! ## Immediates -/

/-- An I- or S-immediate: the 12-bit field sign-extended (R72, R73). -/
def immI (imm : BitVec 12) : Word := imm.signExtend 32
def immS (imm : BitVec 12) : Word := imm.signExtend 32

/-- A B-immediate: the 13-bit offset sign-extended (R74). -/
def immB (off : BitVec 13) : Word := off.signExtend 32

/-- A U-immediate: the field in bits 31:12, twelve zeros below (R75). -/
def immU (imm20 : BitVec 20) : Word := imm20 ++ 0#12

/-- A J-immediate: the 21-bit offset sign-extended (R76). -/
def immJ (off : BitVec 21) : Word := off.signExtend 32

/-! ## Shifts -/

/-- A register shift's amount: the low five bits of `x[rs2]` (R79). -/
def shiftAmount (b : Word) : BitVec 5 := b.extractLsb' 0 5

/-- `a << n` (00_scope.md R14). -/
def shiftLeft (a : Word) (n : BitVec 5) : Word := a <<< n.toNat

/-- `a >>u n` (R14). -/
def shiftRightLogical (a : Word) (n : BitVec 5) : Word := a >>> n.toNat

/-- `a >>s n` (R14). -/
def shiftRightArithmetic (a : Word) (n : BitVec 5) : Word := a.sshiftRight n.toNat

/-! ## Addresses -/

/-- A load's effective address: `x[rs1] + immI`, modulo 2^32 (44_loads.md R160). -/
def loadAddr (s : State) (rs1 : RegIdx) (imm : BitVec 12) : Word := s.reg rs1 + immI imm

/-- A store's effective address: `x[rs1] + immS`, modulo 2^32 (45_stores.md R180; 90_conflicts.md C1). -/
def storeAddr (s : State) (rs1 : RegIdx) (imm : BitVec 12) : Word := s.reg rs1 + immS imm

/-- A taken branch's target (43_branches.md R140). -/
def branchTarget (s : State) (off : BitVec 13) : Word := s.pc + immB off

/-- JAL's target (42_jumps.md R130). -/
def jalTarget (s : State) (off : BitVec 21) : Word := s.pc + immJ off

/-- JALR's target from the state its rs1 is read in: the sum with bit 0 cleared (42_jumps.md R132). -/
def jalrTarget (s : State) (rs1 : RegIdx) (imm : BitVec 12) : Word := (s.reg rs1 + immI imm) &&& ~~~1#32

/-! ## Loaded values (44_loads.md R161); `v` holds the bytes read in its low bits -/

def zeroExtendByte (v : Word) : Word := (v.extractLsb' 0 8).setWidth 32
def zeroExtendHalf (v : Word) : Word := (v.extractLsb' 0 16).setWidth 32
def signExtendByte (v : Word) : Word := (v.extractLsb' 0 8).signExtend 32
def signExtendHalf (v : Word) : Word := (v.extractLsb' 0 16).signExtend 32

/-- LB's extension, as `LOAD_SIGN_EXTEND` says (R161). -/
def extendLb (cfg : Config) (v : Word) : Word := if cfg.loadSignExtend then signExtendByte v else zeroExtendByte v

/-- LH's extension, as `LOAD_SIGN_EXTEND` says (R161). -/
def extendLh (cfg : Config) (v : Word) : Word := if cfg.loadSignExtend then signExtendHalf v else zeroExtendHalf v

end Sys2Proof.Machine
end

