-- ==== Sys2Proof/Machine/Flags.lean ====
section
/-! DEFINITION. The block has no flags (10_state.md R28): "Comparisons write their 0 or 1 result into a general register
... or decide a branch directly from two registers." What stands in a flag computation's place is these comparisons. -/

namespace Sys2Proof.Machine

/-- `a <s b` (00_scope.md R14): the signed values compared. -/
def lessSigned (a b : Word) : Bool := a.slt b

/-- `a <u b` (R14): the unsigned values compared. -/
def lessUnsigned (a b : Word) : Bool := a.ult b

/-- `bool(c)` (R14): 1 or 0 as a word. -/
def boolWord (c : Bool) : Word := if c then 1 else 0

end Sys2Proof.Machine
end

