-- ==== Sys2Proof/Machine/AluImmediate.lean ====
section
/-! DEFINITION. The register-immediate operations (46_alu_immediate.md). -/

namespace Sys2Proof.Machine

/-- ADDI (R201). -/
def execAddi (rd rs1 : RegIdx) (imm : BitVec 12) (s : State) : Result := writeBack rd (s.reg rs1 + immI imm) s

/-- SLTI (R203). -/
def execSlti (rd rs1 : RegIdx) (imm : BitVec 12) (s : State) : Result :=
  writeBack rd (boolWord (lessSigned (s.reg rs1) (immI imm))) s

/-- SLTIU (R204): the immediate is sign-extended, then compared as unsigned. -/
def execSltiu (rd rs1 : RegIdx) (imm : BitVec 12) (s : State) : Result :=
  writeBack rd (boolWord (lessUnsigned (s.reg rs1) (immI imm))) s

/-- XORI (R205). -/
def execXori (rd rs1 : RegIdx) (imm : BitVec 12) (s : State) : Result := writeBack rd (s.reg rs1 ^^^ immI imm) s

/-- ORI (R208). -/
def execOri (rd rs1 : RegIdx) (imm : BitVec 12) (s : State) : Result := writeBack rd (s.reg rs1 ||| immI imm) s

/-- ANDI (R209). -/
def execAndi (rd rs1 : RegIdx) (imm : BitVec 12) (s : State) : Result := writeBack rd (s.reg rs1 &&& immI imm) s

/-- SLLI (R202). -/
def execSlli (rd rs1 : RegIdx) (shamt : BitVec 5) (s : State) : Result :=
  writeBack rd (shiftLeft (s.reg rs1) shamt) s

/-- SRLI (R206). -/
def execSrli (rd rs1 : RegIdx) (shamt : BitVec 5) (s : State) : Result :=
  writeBack rd (shiftRightLogical (s.reg rs1) shamt) s

/-- SRAI (R207). -/
def execSrai (rd rs1 : RegIdx) (shamt : BitVec 5) (s : State) : Result :=
  writeBack rd (shiftRightArithmetic (s.reg rs1) shamt) s

end Sys2Proof.Machine
end

