-- ==== Sys2Proof/Machine/AluRegister.lean ====
section
/-! DEFINITION. The register-register operations (47_alu_register.md). -/

namespace Sys2Proof.Machine

/-- ADD (R231). -/
def execAdd (rd rs1 rs2 : RegIdx) (s : State) : Result := writeBack rd (s.reg rs1 + s.reg rs2) s

/-- SUB (R232). -/
def execSub (rd rs1 rs2 : RegIdx) (s : State) : Result := writeBack rd (s.reg rs1 - s.reg rs2) s

/-- SLL (R233). -/
def execSll (rd rs1 rs2 : RegIdx) (s : State) : Result :=
  writeBack rd (shiftLeft (s.reg rs1) (shiftAmount (s.reg rs2))) s

/-- SLT (R234). -/
def execSlt (rd rs1 rs2 : RegIdx) (s : State) : Result :=
  writeBack rd (boolWord (lessSigned (s.reg rs1) (s.reg rs2))) s

/-- SLTU (R235). -/
def execSltu (rd rs1 rs2 : RegIdx) (s : State) : Result :=
  writeBack rd (boolWord (lessUnsigned (s.reg rs1) (s.reg rs2))) s

/-- XOR (R236). -/
def execXor (rd rs1 rs2 : RegIdx) (s : State) : Result := writeBack rd (s.reg rs1 ^^^ s.reg rs2) s

/-- SRL (R237). -/
def execSrl (rd rs1 rs2 : RegIdx) (s : State) : Result :=
  writeBack rd (shiftRightLogical (s.reg rs1) (shiftAmount (s.reg rs2))) s

/-- SRA (R238). -/
def execSra (rd rs1 rs2 : RegIdx) (s : State) : Result :=
  writeBack rd (shiftRightArithmetic (s.reg rs1) (shiftAmount (s.reg rs2))) s

/-- OR (R239). -/
def execOr (rd rs1 rs2 : RegIdx) (s : State) : Result := writeBack rd (s.reg rs1 ||| s.reg rs2) s

/-- AND (R240). -/
def execAnd (rd rs1 rs2 : RegIdx) (s : State) : Result := writeBack rd (s.reg rs1 &&& s.reg rs2) s

end Sys2Proof.Machine
end

