-- ==== Sys2Proof/Machine/Branches.lean ====
section
/-! DEFINITION. The six conditional branches (43_branches.md). -/

namespace Sys2Proof.Machine

/-- What every branch does once its condition is known (R140). -/
def branch (cond : Bool) (off : BitVec 13) (s : State) : Result :=
  .next (s.setPc (if cond then branchTarget s off else s.nextPc))

/-- BEQ (R141). -/
def execBeq (rs1 rs2 : RegIdx) (off : BitVec 13) (s : State) : Result := branch (s.reg rs1 == s.reg rs2) off s

/-- BNE (R142). -/
def execBne (rs1 rs2 : RegIdx) (off : BitVec 13) (s : State) : Result := branch (s.reg rs1 != s.reg rs2) off s

/-- BLT (R143). -/
def execBlt (rs1 rs2 : RegIdx) (off : BitVec 13) (s : State) : Result :=
  branch (lessSigned (s.reg rs1) (s.reg rs2)) off s

/-- BGE (R144). -/
def execBge (rs1 rs2 : RegIdx) (off : BitVec 13) (s : State) : Result :=
  branch (!lessSigned (s.reg rs1) (s.reg rs2)) off s

/-- BLTU (R145). -/
def execBltu (rs1 rs2 : RegIdx) (off : BitVec 13) (s : State) : Result :=
  branch (lessUnsigned (s.reg rs1) (s.reg rs2)) off s

/-- BGEU (R146). -/
def execBgeu (rs1 rs2 : RegIdx) (off : BitVec 13) (s : State) : Result :=
  branch (!lessUnsigned (s.reg rs1) (s.reg rs2)) off s

end Sys2Proof.Machine
end

