-- ==== Sys2Proof/Machine/Jumps.lean ====
section
/-! DEFINITION. JAL and JALR (42_jumps.md). Targets are neither range- nor alignment-checked here. -/

namespace Sys2Proof.Machine

/-- JAL (R130, R131): the link and the target both come from the address of the JAL. -/
def execJal (rd : RegIdx) (off : BitVec 21) (s : State) : Result :=
  .next ((s.writeReg rd s.nextPc).setPc (jalTarget s off))

/-- JALR (R132, R133): with `JALR_LINK_FIRST` the base is read after the link is written, else before. -/
def execJalr (rd rs1 : RegIdx) (imm : BitVec 12) (s : State) : Result :=
  let linked := s.writeReg rd s.nextPc
  let target := if s.cfg.jalrLinkFirst then jalrTarget linked rs1 imm else jalrTarget s rs1 imm
  .next (linked.setPc target)

end Sys2Proof.Machine
end

