-- ==== Sys2Proof/Machine/Loads.lean ====
section
/-! DEFINITION. The five loads (44_loads.md). -/

namespace Sys2Proof.Machine

/-- What every load does (R160): read `n` bytes at the effective address, extend, write `rd`; an access out of range
raises and writes nothing (60_exceptions.md R280, R284). -/
def load (n : Width) (extend : Word → Word) (rd rs1 : RegIdx) (imm : BitVec 12) (s : State) : Result :=
  match s.memRead (loadAddr s rs1 imm).toNat n with
  | some v => writeBack rd (extend v) s
  | none => raise (.outOfRange .load (loadAddr s rs1 imm) n) s

/-- LB (R162). -/
def execLb (rd rs1 : RegIdx) (imm : BitVec 12) (s : State) : Result := load .byte (extendLb s.cfg) rd rs1 imm s

/-- LH (R163). -/
def execLh (rd rs1 : RegIdx) (imm : BitVec 12) (s : State) : Result := load .half (extendLh s.cfg) rd rs1 imm s

/-- LW (R164). -/
def execLw (rd rs1 : RegIdx) (imm : BitVec 12) (s : State) : Result := load .word id rd rs1 imm s

/-- LBU (R165). -/
def execLbu (rd rs1 : RegIdx) (imm : BitVec 12) (s : State) : Result := load .byte zeroExtendByte rd rs1 imm s

/-- LHU (R166). -/
def execLhu (rd rs1 : RegIdx) (imm : BitVec 12) (s : State) : Result := load .half zeroExtendHalf rd rs1 imm s

end Sys2Proof.Machine
end

