-- ==== Sys2Proof/Machine/Stores.lean ====
section
/-! DEFINITION. The three stores (45_stores.md). -/

namespace Sys2Proof.Machine

/-- What every store does (R180): write the low `8n` bits of `x[rs2]` at the effective address. Out of range it raises,
leaving each in-range byte old or new (20_memory.md R44) and nothing else changed (60_exceptions.md R284). -/
def store (n : Width) (rs1 rs2 : RegIdx) (imm : BitVec 12) (s : State) : Result :=
  match s.memWrite (storeAddr s rs1 imm).toNat n (s.reg rs2) with
  | some s' => advance s'
  | none =>
    raise (.outOfRange .store (storeAddr s rs1 imm) n) (s.partialWrite (storeAddr s rs1 imm).toNat n (s.reg rs2))

/-- SB (R181). -/
def execSb (rs1 rs2 : RegIdx) (imm : BitVec 12) (s : State) : Result := store .byte rs1 rs2 imm s

/-- SH (R182). -/
def execSh (rs1 rs2 : RegIdx) (imm : BitVec 12) (s : State) : Result := store .half rs1 rs2 imm s

/-- SW (R183). -/
def execSw (rs1 rs2 : RegIdx) (imm : BitVec 12) (s : State) : Result := store .word rs1 rs2 imm s

end Sys2Proof.Machine
end

