-- ==== Sys2Proof/Machine/System.lean ====
section
/-! DEFINITION. The fence and system classes (48_misc_mem_system.md), and what an unrecognized word does
(40_step_cycle.md R106). -/

namespace Sys2Proof.Machine

/-- FENCE, FENCE.I and FENCE.TSO among its words (R260, R261): `pc <- pc + 4`; no operand is used. -/
def execFence (_fm _pred _succ : BitVec 4) (_rs1 : RegIdx) (_funct3 : BitVec 3) (_rd : RegIdx) (s : State) : Result :=
  advance s

/-- ECALL (R262): `pc <- pc + 4`; there is no trap and no signal to the host (R266). -/
def execEcall (s : State) : Result := advance s

/-- EBREAK (R263): `pc <- pc + 4`. -/
def execEbreak (s : State) : Result := advance s

/-- Every other SYSTEM word, the CSR words, MRET, SRET, WFI and SFENCE.VMA among them (R264): `pc <- pc + 4`; no operand
is used and no register written. -/
def execSystem (_funct12 : BitVec 12) (_rs1 : RegIdx) (_funct3 : BitVec 3) (_rd : RegIdx) (s : State) : Result :=
  advance s

/-- An unrecognized word, as `ILLEGAL_POLICY` says (40_step_cycle.md R106; 60_exceptions.md R282). -/
def execUnrecognized (w : Word) (s : State) : Result :=
  match s.cfg.illegalPolicy with
  | .nop => advance s
  | .fault => raise (.unrecognized w) s

end Sys2Proof.Machine
end

