-- ==== Sys2Proof/Machine/UpperImmediate.lean ====
section
/-! DEFINITION. LUI and AUIPC (41_upper_immediate.md). -/

namespace Sys2Proof.Machine

/-- LUI (R120). -/
def execLui (rd : RegIdx) (imm20 : BitVec 20) (s : State) : Result := writeBack rd (immU imm20) s

/-- AUIPC (R121): the pc is the address of this instruction. -/
def execAuipc (rd : RegIdx) (imm20 : BitVec 20) (s : State) : Result := writeBack rd (immU imm20 + s.pc) s

end Sys2Proof.Machine
end

