-- ==== Sys2Proof/Machine/Fetch.lean ====
section
/-! DEFINITION. Instruction fetch (40_step_cycle.md R101), and the placing of bytes in memory from outside a step. -/

namespace Sys2Proof.Machine

/-- The instruction word at `pc`, little-endian, at any alignment (R101); `none` where it is out of range. -/
def fetch (s : State) : Option Word := s.memRead s.pc.toNat .word

/-- The fault of a fetch out of range (R101; 60_exceptions.md R280). -/
def fetchFault (s : State) : FaultRecord := .outOfRange .fetch s.pc .word

/-- The memory with `bytes` stored from address `a` on. -/
def placeBytes (m : Memory) (a : Nat) : List Byte → Memory
  | [] => m
  | v :: rest => placeBytes (m.set a v) (a + 1) rest

end Sys2Proof.Machine
end

