-- ==== Sys2Proof/Machine/Step.lean ====
section
/-! DEFINITION. One step of the block (40_step_cycle.md R105), and the placing of one instruction where the next step
fetches it. -/

namespace Sys2Proof.Machine

/-- `Step()` (40_step_cycle.md R105): fetch, decode, then the one rule of the decoded word; stuck once a fault was raised
(60_exceptions.md R285). -/
def step (s : State) : Host.Outcome State Fault Refusal :=
  match s.status with
  | .faulted f => .fault (.stuck f)
  | .running =>
    match fetch s with
    | none => raise (fetchFault s) s
    | some w =>
      match decode w with
      | .ok i => exec i s
      | .error _ => execUnrecognized w s

/-- The state with one instruction word stored where `step` fetches next: at `pc`. The capacity is raised where it does not
reach that far, and a faulted block runs again, since the fetch needs both (notes/assumptions/4.md); in `State.reset`
neither changes. -/
def State.withFetchWord (s : State) (nbits w : Nat) : State :=
  { s with
    cfg := { s.cfg with memSize := max s.cfg.memSize (s.pc.toNat + 4) }
    mem := placeBytes s.mem s.pc.toNat (bytesOfWord (tableWord nbits w))
    status := .running }

end Sys2Proof.Machine
end

