-- ==== Sys2Proof/Machine/HostPort.lean ====
section
/-! DEFINITION. What the host can do between steps (00_scope.md R7, R8; 60_exceptions.md R296), beside `State.construct`
and `step`; and a run, ended as 70_reset_and_hazards.md R306 says. The host has no operation that writes `pc` or a
register. -/

namespace Sys2Proof.Machine

/-- `ReadPC()` (00_scope.md R7). -/
def State.hostReadPc (s : State) : Word := s.pc

/-- `ReadReg(i)` (00_scope.md R7, R17): the signed value of the register as an instruction reads it. -/
def State.hostReadReg (s : State) (i : RegIdx) : Int := (s.reg i).toInt

/-- `readByte`, `readHalfWord`, `readWord` by the host (R8): the core's own operation; `none` is the out-of-range error,
which changes nothing, `status` included (R296). -/
def State.hostRead (s : State) (a : Word) (n : Width) : Option Word := s.memRead a.toNat n

/-- What a host write answers (R296: "done or OutOfRange"). -/
inductive HostReply where
  | done
  | outOfRange
  deriving DecidableEq, Repr

/-- `writeByte`, `writeHalfWord`, `writeWord` by the host (R8), with the core's range check. A failed one leaves its
in-range bytes as any failed write does (20_memory.md R44; DEDUCED, notes/assumptions/6.md) and `status` as it was (R296). -/
def State.hostWrite (s : State) (a : Word) (n : Width) (v : Word) : HostReply × State :=
  match s.memWrite a.toNat n v with
  | some s' => (.done, s')
  | none => (.outOfRange, s.partialWrite a.toNat n v)

/-- How a run ended (70_reset_and_hazards.md R306), with the final state. -/
inductive RunEnd where
  | fault (f : FaultRecord) (final : State)  -- a step raised `f`
  | stopPc (final : State)                   -- the host stopped: `pc = STOP_PC`
  | maxSteps (final : State)                 -- the host stopped: `MAX_STEPS` steps were made
  | stuck (f : FaultRecord) (final : State)  -- no step is defined: the block had faulted before the run
  | refused (r : Refusal) (final : State)    -- an instruction had no meaning: not reached in this model
  deriving DecidableEq, Repr

/-- Whether the host stops before stepping (R306): at `pc = STOP_PC`, or with no step left of `MAX_STEPS`; either may be
absent. Where both hold R306 does not say which is reported: `STOP_PC` is (DESIGN CHOICE, notes/assumptions/15.md). -/
def hostStop (stopPc : Option Word) (stepsLeft : Option Nat) (s : State) : Option RunEnd :=
  if stopPc = some s.pc then some (.stopPc s)
  else if stepsLeft = some 0 then some (.maxSteps s)
  else none

/-- The first `fuel` steps of a run with the host's stop conditions, either or both of them given, or none (R306): how it
ended, or `none` where it goes on. `fuel` bounds the definition and is no condition of the run: `RunEndsWith` has none. -/
def runHost (stopPc : Option Word) : Option Nat → (fuel : Nat) → State → Option RunEnd
  | stepsLeft, 0, s => hostStop stopPc stepsLeft s
  | stepsLeft, k + 1, s =>
    match hostStop stopPc stepsLeft s with
    | some e => some e
    | none =>
      match step s with
      | .next s' => runHost stopPc (stepsLeft.map (· - 1)) k s'
      | .fault (.raised f left) => some (.fault f left)
      | .fault (.stuck f) => some (.stuck f s)
      | .refused r => some (.refused r s)

/-- The run from `s` with the stop conditions `STOP_PC` and `MAX_STEPS`, each given or not, ends as `e` (R306). A run with
no `MAX_STEPS` may end in no way. -/
def RunEndsWith (stopPc : Option Word) (maxSteps : Option Nat) (s : State) (e : RunEnd) : Prop :=
  ∃ fuel, runHost stopPc maxSteps fuel s = some e

end Sys2Proof.Machine
end

