-- ==== Sys2Proof/Safety.lean ====
section
/-! DEFINITION. What the claims mean by a sound state and by a run that stays safe. -/

namespace Sys2Proof.Machine

/-- A sound state: the capacity is one the spec allows (20_memory.md R52), and memory is in its canonical form with no byte
listed at or beyond the capacity (R40). -/
def State.Sound (s : State) : Prop :=
  s.cfg.memSize ≤ Config.maxMemSize ∧ s.mem.wf = true ∧ s.mem.within s.cfg.memSize = true

/-- `k` steps from `s` all complete (40_step_cycle.md R100: `Ok`), and end in `t`. -/
def RunsTo (k : Nat) (s t : State) : Prop := Sys2Proof.core.run k s = .next t

/-- A step fails safely: it raises a fault and the state it leaves records it (60_exceptions.md R285). -/
def FaultsWith (s : State) (f : FaultRecord) (left : State) : Prop := step s = .fault (.raised f left)

end Sys2Proof.Machine
end

