-- ==== Sys2Proof/Certificates/Slice0/Obligations.lean ====
section
/-! DEFINITION. The statements for the provers. The instruction statements say three things of an instruction at once:
which words are it (30_encoding.md R71, R80, R81, the word written out field by field), what its step leaves, and that
nothing else changes. They hold for every state, so for every value of the launch parameters, of `INIT_REGS` and of the
free values (00_scope.md R12). -/

namespace Sys2Proof.Claims

open Sys2Proof.Machine

/-- The block apart from registers and pc is the same: parameters, every byte of memory, status and the model's own draw
counter. -/
def SameElsewhere (s t : State) : Prop :=
  t.cfg = s.cfg ∧ (∀ a, t.readByte a = s.readByte a) ∧ t.status = s.status ∧ t.draws = s.draws

/-- `i` completes, continues at `target` and writes `v` to `rd` and nothing else. Where index 0 is hardwired and is the
destination, nothing is written and index 0 reads 0 (10_state.md R23, R24). -/
def CompletesWriting (i : Instr) (s : State) (rd : RegIdx) (v target : Word) : Prop :=
  ∃ t, exec i s = .next t ∧ t.pc = target ∧
    (if s.cfg.x0Hardwired = true ∧ rd = 0 then t.regs = s.regs ∧ t.reg rd = 0 else t.reg rd = v) ∧
    (∀ r, r ≠ rd → t.reg r = s.reg r) ∧ SameElsewhere s t

/-- `i` completes, continues at `target`, and writes no register and no byte of memory. -/
def CompletesWritingNothing (i : Instr) (s : State) (target : Word) : Prop :=
  ∃ t, exec i s = .next t ∧ t.pc = target ∧ t.regs = s.regs ∧ SameElsewhere s t

/-- `i` completes, continues at `pc + 4`, and stores the low `n` bytes of `v` from address `a` on, and nothing else. -/
def CompletesStoring (i : Instr) (s : State) (a : Nat) (n : Width) (v : Word) : Prop :=
  ∃ t, exec i s = .next t ∧ t.pc = s.pc + 4 ∧ t.regs = s.regs ∧
    (∀ k, k < n.bytes → t.readByte (a + k) = some (v.extractLsb' (8 * k) 8)) ∧
    (∀ b, b < a ∨ a + n.bytes ≤ b → t.readByte b = s.readByte b) ∧
    t.cfg = s.cfg ∧ t.status = s.status ∧ t.draws = s.draws

/-- `t` is `s` but for the bytes of a failed write of `n` bytes of `v` from `a` on, each in-range one of which is old or
new, and but for the status and the model's own draw counter (20_memory.md R44). -/
def LeftByFailedWrite (s t : State) (a : Nat) (n : Width) (v : Word) : Prop :=
  t.regs = s.regs ∧ t.pc = s.pc ∧ t.cfg = s.cfg ∧
    (∀ k, k < n.bytes → a + k < s.cfg.memSize →
      t.readByte (a + k) = s.readByte (a + k) ∨ t.readByte (a + k) = some (v.extractLsb' (8 * k) 8)) ∧
    (∀ b, b < a ∨ a + n.bytes ≤ b → t.readByte b = s.readByte b)

/-- A load of `n` bytes at `addr` that is out of range raises, and changes nothing but the status. -/
def LoadFaults (i : Instr) (s : State) (addr : Word) (n : Width) : Prop :=
  s.cfg.memSize < addr.toNat + n.bytes →
    exec i s = .fault (.raised (.outOfRange .load addr n) { s with status := .faulted (.outOfRange .load addr n) })

/-- A store of `n` bytes at `addr` that is out of range raises, and leaves its in-range bytes old or new. -/
def StoreFaults (i : Instr) (s : State) (addr : Word) (n : Width) (v : Word) : Prop :=
  s.cfg.memSize < addr.toNat + n.bytes →
    ∃ t, exec i s = .fault (.raised (.outOfRange .store addr n) t) ∧
      t.status = .faulted (.outOfRange .store addr n) ∧ LeftByFailedWrite s t addr.toNat n v

/-- `addr` is `x[rs1]` plus the sign-extended 12-bit immediate, modulo 2^32. -/
def IsBasePlus (addr : Word) (s : State) (rs1 : RegIdx) (imm : BitVec 12) : Prop :=
  addr = BitVec.ofInt 32 ((s.reg rs1).toInt + imm.toInt)

/-! The formats of 30_encoding.md R71, bit 31 first. -/

def rWord (funct7 : BitVec 7) (rs2 rs1 : RegIdx) (funct3 : BitVec 3) (rd : RegIdx) (op : BitVec 7) : Word :=
  funct7 ++ rs2 ++ rs1 ++ funct3 ++ rd ++ op

def iWord (imm : BitVec 12) (rs1 : RegIdx) (funct3 : BitVec 3) (rd : RegIdx) (op : BitVec 7) : Word :=
  imm ++ rs1 ++ funct3 ++ rd ++ op

/-- imm[11:5], rs2, rs1, funct3, imm[4:0], opcode. -/
def sWord (imm : BitVec 12) (rs2 rs1 : RegIdx) (funct3 : BitVec 3) (op : BitVec 7) : Word :=
  imm.extractLsb' 5 7 ++ rs2 ++ rs1 ++ funct3 ++ imm.extractLsb' 0 5 ++ op

/-- imm[12], imm[10:5], rs2, rs1, funct3, imm[4:1], imm[11], opcode. -/
def bWord (off : BitVec 13) (rs2 rs1 : RegIdx) (funct3 : BitVec 3) (op : BitVec 7) : Word :=
  off.extractLsb' 12 1 ++ off.extractLsb' 5 6 ++ rs2 ++ rs1 ++ funct3 ++ off.extractLsb' 1 4 ++
    off.extractLsb' 11 1 ++ op

def uWord (imm20 : BitVec 20) (rd : RegIdx) (op : BitVec 7) : Word := imm20 ++ rd ++ op

/-- imm[20], imm[10:1], imm[11], imm[19:12], rd, opcode. -/
def jWord (off : BitVec 21) (rd : RegIdx) (op : BitVec 7) : Word :=
  off.extractLsb' 20 1 ++ off.extractLsb' 1 10 ++ off.extractLsb' 11 1 ++ off.extractLsb' 12 8 ++ rd ++ op

/-- A branch with this funct3 is `i`, and goes to `pc + off` where `cond` holds and to `pc + 4` where it does not,
changing nothing else (43_branches.md R140). -/
def BranchesOn (funct3 : BitVec 3) (i : Instr) (s : State) (rs1 rs2 : RegIdx) (off : BitVec 13) (cond : Prop) : Prop :=
  (off.getLsbD 0 = false → decode (bWord off rs2 rs1 funct3 0x63#7) = .ok i) ∧
    (cond → CompletesWritingNothing i s (BitVec.ofInt 32 (s.pc.toNat + off.toInt))) ∧
    (¬cond → CompletesWritingNothing i s (s.pc + 4))

end Sys2Proof.Claims

open Sys2Proof Sys2Proof.Machine Sys2Proof.Claims

/-! ## Upper immediates and jumps -/

/-- R120: LUI puts the 20 immediate bits in bits 31:12 and zeros below, for every rd. -/
def Obligations.LuiPlacesUpperImmediate : Prop :=
  ∀ (s : State) (rd : RegIdx) (imm20 : BitVec 20),
    decode (uWord imm20 rd 0x37#7) = .ok (.lui rd imm20) ∧
      CompletesWriting (.lui rd imm20) s rd (BitVec.ofNat 32 (imm20.toNat * 4096)) (s.pc + 4)

/-- R121: AUIPC adds the U-immediate to the address of the AUIPC itself, modulo 2^32. -/
def Obligations.AuipcAddsItsOwnAddress : Prop :=
  ∀ (s : State) (rd : RegIdx) (imm20 : BitVec 20),
    decode (uWord imm20 rd 0x17#7) = .ok (.auipc rd imm20) ∧
      CompletesWriting (.auipc rd imm20) s rd (BitVec.ofNat 32 (imm20.toNat * 4096 + s.pc.toNat)) (s.pc + 4)

/-- R130, R131: JAL links the address after itself and jumps by its signed offset, both from its own address. -/
def Obligations.JalLinksAndJumps : Prop :=
  ∀ (s : State) (rd : RegIdx) (off : BitVec 21),
    (off.getLsbD 0 = false → decode (jWord off rd 0x6F#7) = .ok (.jal rd off)) ∧
      CompletesWriting (.jal rd off) s rd (BitVec.ofNat 32 (s.pc.toNat + 4))
        (BitVec.ofInt 32 (s.pc.toNat + off.toInt))

/-- R132, R133: JALR links, and jumps to base plus immediate with bit 0 cleared. The base is the new link value exactly
when the link is written first, rd is rs1 and the write is not discarded; else it is the old `x[rs1]`. -/
def Obligations.JalrLinksAndJumpsInEitherOrder : Prop :=
  ∀ (s : State) (rd rs1 : RegIdx) (imm : BitVec 12) (base : Word),
    ((s.cfg.jalrLinkFirst = true ∧ rd = rs1 ∧ ¬(s.cfg.x0Hardwired = true ∧ rd = 0)) → base = s.pc + 4) →
    (¬(s.cfg.jalrLinkFirst = true ∧ rd = rs1 ∧ ¬(s.cfg.x0Hardwired = true ∧ rd = 0)) → base = s.reg rs1) →
    decode (iWord imm rs1 0#3 rd 0x67#7) = .ok (.jalr rd rs1 imm) ∧
      CompletesWriting (.jalr rd rs1 imm) s rd (BitVec.ofNat 32 (s.pc.toNat + 4))
        (BitVec.ofNat 32 (2 * ((BitVec.ofInt 32 (base.toInt + imm.toInt)).toNat / 2)))

/-! ## Branches -/

/-- R141, R142: BEQ and BNE compare all 32 bits. -/
def Obligations.BeqBneCompareForEquality : Prop :=
  ∀ (s : State) (rs1 rs2 : RegIdx) (off : BitVec 13),
    BranchesOn 0#3 (.beq rs1 rs2 off) s rs1 rs2 off ((s.reg rs1).toNat = (s.reg rs2).toNat) ∧
      BranchesOn 1#3 (.bne rs1 rs2 off) s rs1 rs2 off ((s.reg rs1).toNat ≠ (s.reg rs2).toNat)

/-- R143, R144: BLT and BGE compare the signed values. -/
def Obligations.BltBgeCompareSigned : Prop :=
  ∀ (s : State) (rs1 rs2 : RegIdx) (off : BitVec 13),
    BranchesOn 4#3 (.blt rs1 rs2 off) s rs1 rs2 off ((s.reg rs1).toInt < (s.reg rs2).toInt) ∧
      BranchesOn 5#3 (.bge rs1 rs2 off) s rs1 rs2 off ((s.reg rs1).toInt ≥ (s.reg rs2).toInt)

/-- R145, R146: BLTU and BGEU compare the unsigned values. -/
def Obligations.BltuBgeuCompareUnsigned : Prop :=
  ∀ (s : State) (rs1 rs2 : RegIdx) (off : BitVec 13),
    BranchesOn 6#3 (.bltu rs1 rs2 off) s rs1 rs2 off ((s.reg rs1).toNat < (s.reg rs2).toNat) ∧
      BranchesOn 7#3 (.bgeu rs1 rs2 off) s rs1 rs2 off ((s.reg rs1).toNat ≥ (s.reg rs2).toNat)

/-! ## Loads -/

/-- R162: LB loads the byte at base plus immediate, extended as `LOAD_SIGN_EXTEND` says, or raises out of range. -/
def Obligations.LbLoadsByte : Prop :=
  ∀ (s : State) (rd rs1 : RegIdx) (imm : BitVec 12) (addr : Word), IsBasePlus addr s rs1 imm →
    decode (iWord imm rs1 0#3 rd 0x03#7) = .ok (.lb rd rs1 imm) ∧
    (addr.toNat + 1 ≤ s.cfg.memSize → ∃ b0, s.readByte addr.toNat = some b0 ∧
      CompletesWriting (.lb rd rs1 imm) s rd
        (if s.cfg.loadSignExtend = true then BitVec.ofInt 32 b0.toInt else BitVec.ofNat 32 b0.toNat) (s.pc + 4)) ∧
    LoadFaults (.lb rd rs1 imm) s addr .byte

/-- R163: LH loads two bytes, the one at the lower address low, extended as `LOAD_SIGN_EXTEND` says, or raises. -/
def Obligations.LhLoadsHalfword : Prop :=
  ∀ (s : State) (rd rs1 : RegIdx) (imm : BitVec 12) (addr : Word), IsBasePlus addr s rs1 imm →
    decode (iWord imm rs1 1#3 rd 0x03#7) = .ok (.lh rd rs1 imm) ∧
    (addr.toNat + 2 ≤ s.cfg.memSize → ∃ b0 b1, s.readByte addr.toNat = some b0 ∧
      s.readByte (addr.toNat + 1) = some b1 ∧
      CompletesWriting (.lh rd rs1 imm) s rd
        (if s.cfg.loadSignExtend = true then BitVec.ofInt 32 (b1.toInt * 256 + b0.toNat)
          else BitVec.ofNat 32 (b1.toNat * 256 + b0.toNat)) (s.pc + 4)) ∧
    LoadFaults (.lh rd rs1 imm) s addr .half

/-- R164: LW loads four bytes, the lowest address lowest, at any alignment, or raises. -/
def Obligations.LwLoadsWord : Prop :=
  ∀ (s : State) (rd rs1 : RegIdx) (imm : BitVec 12) (addr : Word), IsBasePlus addr s rs1 imm →
    decode (iWord imm rs1 2#3 rd 0x03#7) = .ok (.lw rd rs1 imm) ∧
    (addr.toNat + 4 ≤ s.cfg.memSize → ∃ b0 b1 b2 b3, s.readByte addr.toNat = some b0 ∧
      s.readByte (addr.toNat + 1) = some b1 ∧ s.readByte (addr.toNat + 2) = some b2 ∧
      s.readByte (addr.toNat + 3) = some b3 ∧
      CompletesWriting (.lw rd rs1 imm) s rd
        (BitVec.ofNat 32 (b3.toNat * 16777216 + b2.toNat * 65536 + b1.toNat * 256 + b0.toNat)) (s.pc + 4)) ∧
    LoadFaults (.lw rd rs1 imm) s addr .word

/-- R165, R166: LBU and LHU zero-extend under both settings of `LOAD_SIGN_EXTEND`, or raise. -/
def Obligations.LbuLhuZeroExtend : Prop :=
  ∀ (s : State) (rd rs1 : RegIdx) (imm : BitVec 12) (addr : Word), IsBasePlus addr s rs1 imm →
    decode (iWord imm rs1 4#3 rd 0x03#7) = .ok (.lbu rd rs1 imm) ∧
    decode (iWord imm rs1 5#3 rd 0x03#7) = .ok (.lhu rd rs1 imm) ∧
    (addr.toNat + 1 ≤ s.cfg.memSize → ∃ b0, s.readByte addr.toNat = some b0 ∧
      CompletesWriting (.lbu rd rs1 imm) s rd (BitVec.ofNat 32 b0.toNat) (s.pc + 4)) ∧
    (addr.toNat + 2 ≤ s.cfg.memSize → ∃ b0 b1, s.readByte addr.toNat = some b0 ∧
      s.readByte (addr.toNat + 1) = some b1 ∧
      CompletesWriting (.lhu rd rs1 imm) s rd (BitVec.ofNat 32 (b1.toNat * 256 + b0.toNat)) (s.pc + 4)) ∧
    LoadFaults (.lbu rd rs1 imm) s addr .byte ∧ LoadFaults (.lhu rd rs1 imm) s addr .half

/-! ## Stores; `Sound` is kept by every step (StepKeepsTheStateSound) and holds at construction -/

/-- R181, R182, R183: SB, SH and SW store the low 1, 2 or 4 bytes of `x[rs2]` at the store's address, or raise. -/
def Obligations.StoresWriteLowBytes : Prop :=
  ∀ (s : State) (rs1 rs2 : RegIdx) (imm : BitVec 12), s.Sound →
    IsBasePlus (storeAddr s rs1 imm) s rs1 imm ∧
    decode (sWord imm rs2 rs1 0#3 0x23#7) = .ok (.sb rs1 rs2 imm) ∧
    decode (sWord imm rs2 rs1 1#3 0x23#7) = .ok (.sh rs1 rs2 imm) ∧
    decode (sWord imm rs2 rs1 2#3 0x23#7) = .ok (.sw rs1 rs2 imm) ∧
    ((storeAddr s rs1 imm).toNat + 1 ≤ s.cfg.memSize →
      CompletesStoring (.sb rs1 rs2 imm) s (storeAddr s rs1 imm).toNat .byte (s.reg rs2)) ∧
    ((storeAddr s rs1 imm).toNat + 2 ≤ s.cfg.memSize →
      CompletesStoring (.sh rs1 rs2 imm) s (storeAddr s rs1 imm).toNat .half (s.reg rs2)) ∧
    ((storeAddr s rs1 imm).toNat + 4 ≤ s.cfg.memSize →
      CompletesStoring (.sw rs1 rs2 imm) s (storeAddr s rs1 imm).toNat .word (s.reg rs2)) ∧
    StoreFaults (.sb rs1 rs2 imm) s (storeAddr s rs1 imm) .byte (s.reg rs2) ∧
    StoreFaults (.sh rs1 rs2 imm) s (storeAddr s rs1 imm) .half (s.reg rs2) ∧
    StoreFaults (.sw rs1 rs2 imm) s (storeAddr s rs1 imm) .word (s.reg rs2)

/-! ## ALU operations -/

/-- R201: ADDI adds the signed immediate and keeps the sum modulo 2^32. -/
def Obligations.AddiAddsModulo : Prop :=
  ∀ (s : State) (rd rs1 : RegIdx) (imm : BitVec 12),
    decode (iWord imm rs1 0#3 rd 0x13#7) = .ok (.addi rd rs1 imm) ∧
      CompletesWriting (.addi rd rs1 imm) s rd (BitVec.ofInt 32 ((s.reg rs1).toInt + imm.toInt)) (s.pc + 4)

/-- R231, R232: ADD and SUB keep the exact signed result modulo 2^32. -/
def Obligations.AddSubAreModulo : Prop :=
  ∀ (s : State) (rd rs1 rs2 : RegIdx),
    decode (rWord 0x00#7 rs2 rs1 0#3 rd 0x33#7) = .ok (.add rd rs1 rs2) ∧
    decode (rWord 0x20#7 rs2 rs1 0#3 rd 0x33#7) = .ok (.sub rd rs1 rs2) ∧
    CompletesWriting (.add rd rs1 rs2) s rd (BitVec.ofInt 32 ((s.reg rs1).toInt + (s.reg rs2).toInt)) (s.pc + 4) ∧
    CompletesWriting (.sub rd rs1 rs2) s rd (BitVec.ofInt 32 ((s.reg rs1).toInt - (s.reg rs2).toInt)) (s.pc + 4)

/-- R203, R204, R234, R235: the set-less-than instructions write 1 or 0; the immediate of SLTIU is sign-extended, then
compared as unsigned. -/
def Obligations.SetLessThanWritesTheComparison : Prop :=
  ∀ (s : State) (rd rs1 rs2 : RegIdx) (imm : BitVec 12),
    decode (iWord imm rs1 2#3 rd 0x13#7) = .ok (.slti rd rs1 imm) ∧
    decode (iWord imm rs1 3#3 rd 0x13#7) = .ok (.sltiu rd rs1 imm) ∧
    decode (rWord 0x00#7 rs2 rs1 2#3 rd 0x33#7) = .ok (.slt rd rs1 rs2) ∧
    decode (rWord 0x00#7 rs2 rs1 3#3 rd 0x33#7) = .ok (.sltu rd rs1 rs2) ∧
    CompletesWriting (.slti rd rs1 imm) s rd (if (s.reg rs1).toInt < imm.toInt then 1 else 0) (s.pc + 4) ∧
    CompletesWriting (.sltiu rd rs1 imm) s rd
      (if ((s.reg rs1).toNat : Int) < imm.toInt % 4294967296 then 1 else 0) (s.pc + 4) ∧
    CompletesWriting (.slt rd rs1 rs2) s rd (if (s.reg rs1).toInt < (s.reg rs2).toInt then 1 else 0) (s.pc + 4) ∧
    CompletesWriting (.sltu rd rs1 rs2) s rd (if (s.reg rs1).toNat < (s.reg rs2).toNat then 1 else 0) (s.pc + 4)

/-- R205, R208, R209: the immediate logic operations act bit by bit, the immediate's bit 11 standing in bits 31:11. -/
def Obligations.ImmediateLogicIsBitwise : Prop :=
  ∀ (s : State) (rd rs1 : RegIdx) (imm : BitVec 12),
    decode (iWord imm rs1 4#3 rd 0x13#7) = .ok (.xori rd rs1 imm) ∧
    decode (iWord imm rs1 6#3 rd 0x13#7) = .ok (.ori rd rs1 imm) ∧
    decode (iWord imm rs1 7#3 rd 0x13#7) = .ok (.andi rd rs1 imm) ∧
    ∃ x o n : Word,
      CompletesWriting (.xori rd rs1 imm) s rd x (s.pc + 4) ∧
      CompletesWriting (.ori rd rs1 imm) s rd o (s.pc + 4) ∧
      CompletesWriting (.andi rd rs1 imm) s rd n (s.pc + 4) ∧
      ∀ k, k < 32 →
        x.getLsbD k = ((s.reg rs1).getLsbD k != imm.getLsbD (min k 11)) ∧
        o.getLsbD k = ((s.reg rs1).getLsbD k || imm.getLsbD (min k 11)) ∧
        n.getLsbD k = ((s.reg rs1).getLsbD k && imm.getLsbD (min k 11))

/-- R236, R239, R240: the register logic operations act bit by bit. -/
def Obligations.RegisterLogicIsBitwise : Prop :=
  ∀ (s : State) (rd rs1 rs2 : RegIdx),
    decode (rWord 0x00#7 rs2 rs1 4#3 rd 0x33#7) = .ok (.xor rd rs1 rs2) ∧
    decode (rWord 0x00#7 rs2 rs1 6#3 rd 0x33#7) = .ok (.or rd rs1 rs2) ∧
    decode (rWord 0x00#7 rs2 rs1 7#3 rd 0x33#7) = .ok (.and rd rs1 rs2) ∧
    ∃ x o n : Word,
      CompletesWriting (.xor rd rs1 rs2) s rd x (s.pc + 4) ∧
      CompletesWriting (.or rd rs1 rs2) s rd o (s.pc + 4) ∧
      CompletesWriting (.and rd rs1 rs2) s rd n (s.pc + 4) ∧
      ∀ k, k < 32 →
        x.getLsbD k = ((s.reg rs1).getLsbD k != (s.reg rs2).getLsbD k) ∧
        o.getLsbD k = ((s.reg rs1).getLsbD k || (s.reg rs2).getLsbD k) ∧
        n.getLsbD k = ((s.reg rs1).getLsbD k && (s.reg rs2).getLsbD k)

/-- R202, R206, R207: the immediate shifts multiply or divide by a power of two, SRAI rounding the signed value down. -/
def Obligations.ImmediateShiftsScaleByPowersOfTwo : Prop :=
  ∀ (s : State) (rd rs1 : RegIdx) (shamt : BitVec 5),
    decode (rWord 0x00#7 shamt rs1 1#3 rd 0x13#7) = .ok (.slli rd rs1 shamt) ∧
    decode (rWord 0x00#7 shamt rs1 5#3 rd 0x13#7) = .ok (.srli rd rs1 shamt) ∧
    decode (rWord 0x20#7 shamt rs1 5#3 rd 0x13#7) = .ok (.srai rd rs1 shamt) ∧
    CompletesWriting (.slli rd rs1 shamt) s rd (BitVec.ofNat 32 ((s.reg rs1).toNat * 2 ^ shamt.toNat)) (s.pc + 4) ∧
    CompletesWriting (.srli rd rs1 shamt) s rd (BitVec.ofNat 32 ((s.reg rs1).toNat / 2 ^ shamt.toNat)) (s.pc + 4) ∧
    CompletesWriting (.srai rd rs1 shamt) s rd (BitVec.ofInt 32 ((s.reg rs1).toInt / 2 ^ shamt.toNat)) (s.pc + 4)

/-- R233, R237, R238: the register shifts use the low five bits of `x[rs2]` alone. -/
def Obligations.RegisterShiftsUseFiveBits : Prop :=
  ∀ (s : State) (rd rs1 rs2 : RegIdx) (n : Nat), n = (s.reg rs2).toNat % 32 →
    decode (rWord 0x00#7 rs2 rs1 1#3 rd 0x33#7) = .ok (.sll rd rs1 rs2) ∧
    decode (rWord 0x00#7 rs2 rs1 5#3 rd 0x33#7) = .ok (.srl rd rs1 rs2) ∧
    decode (rWord 0x20#7 rs2 rs1 5#3 rd 0x33#7) = .ok (.sra rd rs1 rs2) ∧
    CompletesWriting (.sll rd rs1 rs2) s rd (BitVec.ofNat 32 ((s.reg rs1).toNat * 2 ^ n)) (s.pc + 4) ∧
    CompletesWriting (.srl rd rs1 rs2) s rd (BitVec.ofNat 32 ((s.reg rs1).toNat / 2 ^ n)) (s.pc + 4) ∧
    CompletesWriting (.sra rd rs1 rs2) s rd (BitVec.ofInt 32 ((s.reg rs1).toInt / 2 ^ n)) (s.pc + 4)

/-! ## Fence and system -/

/-- R260: every word of the MISC-MEM opcode is FENCE, whatever its other 25 bits, and only advances the pc. -/
def Obligations.FenceOnlyAdvances : Prop :=
  ∀ (s : State) (fm pred succ : BitVec 4) (rs1 : RegIdx) (funct3 : BitVec 3) (rd : RegIdx),
    decode (fm ++ pred ++ succ ++ rs1 ++ funct3 ++ rd ++ 0x0F#7) = .ok (.fence fm pred succ rs1 funct3 rd) ∧
      CompletesWritingNothing (.fence fm pred succ rs1 funct3 rd) s (s.pc + 4)

/-- R262, R263, R264: ECALL, EBREAK and every other SYSTEM word only advance the pc: no trap, no register write, CSR
words, MRET, SRET and WFI among them. -/
def Obligations.SystemClassOnlyAdvances : Prop :=
  ∀ (s : State) (funct12 : BitVec 12) (rs1 : RegIdx) (funct3 : BitVec 3) (rd : RegIdx) (w : Word),
    w = iWord funct12 rs1 funct3 rd 0x73#7 →
    decode 0x00000073#32 = .ok .ecall ∧ decode 0x00100073#32 = .ok .ebreak ∧
    (w ≠ 0x00000073#32 → w ≠ 0x00100073#32 → decode w = .ok (.system funct12 rs1 funct3 rd)) ∧
    CompletesWritingNothing .ecall s (s.pc + 4) ∧ CompletesWritingNothing .ebreak s (s.pc + 4) ∧
    CompletesWritingNothing (.system funct12 rs1 funct3 rd) s (s.pc + 4)

/-! ## Encoding -/

/-- DEDUCED from R71, R77 and R82: decoding the word of a well-formed instruction gives it back, all 41 of them, every
operand at every value. -/
def Obligations.DecodeInvertsEncode : Prop :=
  ∀ i : Instr, i.wellFormed = true → decode (encode i) = .ok i

/-- DEDUCED from R71, R77 and R82: no bit of a recognized word is dropped: the instruction it decodes to is well-formed
and encodes to that word, so two words never decode to one instruction. -/
def Obligations.EncodeInvertsDecode : Prop :=
  ∀ (w : Word) (i : Instr), decode w = .ok i → i.wellFormed = true ∧ encode i = w

/-- R83: the unrecognized words are exactly those of its list; every other word decodes to an instruction. For the words of
R84 the classification is the spec's own choice, which no claim about a real program should rest on
(notes/assumptions/8.md). -/
def Obligations.UnrecognizedWordsAreExactlyTheListed : Prop :=
  ∀ (w : Word) (op : BitVec 7) (f3 : BitVec 3) (f7 : BitVec 7),
    op = w.extractLsb' 0 7 → f3 = w.extractLsb' 12 3 → f7 = w.extractLsb' 25 7 →
    ((∃ r, decode w = .error r) ↔
      (op ∉ [0x37#7, 0x17#7, 0x6F#7, 0x67#7, 0x63#7, 0x03#7, 0x23#7, 0x13#7, 0x33#7, 0x0F#7, 0x73#7]) ∨
      (op = 0x67#7 ∧ f3 ≠ 0#3) ∨
      (op = 0x63#7 ∧ f3 ∈ [2#3, 3#3]) ∨
      (op = 0x03#7 ∧ f3 ∈ [3#3, 6#3, 7#3]) ∨
      (op = 0x23#7 ∧ f3 ∈ [3#3, 4#3, 5#3, 6#3, 7#3]) ∨
      (op = 0x13#7 ∧ ((f3 = 1#3 ∧ f7 ≠ 0x00#7) ∨ (f3 = 5#3 ∧ f7 ≠ 0x00#7 ∧ f7 ≠ 0x20#7))) ∨
      (op = 0x33#7 ∧ f7 ≠ 0x00#7 ∧ ¬(f7 = 0x20#7 ∧ (f3 = 0#3 ∨ f3 = 5#3))))

/-- R72 to R76: the value of each of the five immediates, from the bits of any word: bit by bit for I, S, B and J, whose
bit 31 is the sign, and as a mask for U. -/
def Obligations.ImmediatesAssembleTheirBits : Prop :=
  ∀ w : Word,
    (∀ k, k < 32 → (immI (immIOf w)).getLsbD k = w.getLsbD (if k < 11 then 20 + k else 31)) ∧
    (∀ k, k < 32 → (immS (immSOf w)).getLsbD k =
      w.getLsbD (if k < 5 then 7 + k else if k < 11 then 20 + k else 31)) ∧
    (∀ k, k < 32 → (immB (immBOf w)).getLsbD k =
      (k != 0 && w.getLsbD (if k < 5 then 7 + k else if k < 11 then 20 + k else if k = 11 then 7 else 31))) ∧
    immU (immUOf w) = w &&& 0xFFFFF000#32 ∧
    (∀ k, k < 32 → (immJ (immJOf w)).getLsbD k =
      (k != 0 && w.getLsbD (if k < 11 then 20 + k else if k = 11 then 20 else if k < 20 then k else 31)))

/-- Words from 95_test_vectors.md, one for each family, decode to what is written beside them. The last three are words the
vectors call unrecognized (0x8040D193 a word of R84, which no claim about a real program should rest on); the names of
their rejections are the model's choice (notes/assumptions/8.md). -/
def Obligations.WorkedWordsDecode : Prop :=
  decode 0x123452B7#32 = .ok (.lui 5 0x12345) ∧ decode 0xFF9FF0EF#32 = .ok (.jal 1 (BitVec.ofInt 21 (-8))) ∧
  decode 0x010080E7#32 = .ok (.jalr 1 1 16) ∧ decode 0xFE011CE3#32 = .ok (.bne 2 0 (BitVec.ofInt 13 (-8))) ∧
  decode 0x10101203#32 = .ok (.lh 4 0 0x101) ∧ decode 0xFE112E23#32 = .ok (.sw 2 1 (BitVec.ofInt 12 (-4))) ∧
  decode 0xFFF0C193#32 = .ok (.xori 3 1 (BitVec.ofInt 12 (-1))) ∧ decode 0x4040D193#32 = .ok (.srai 3 1 4) ∧
  decode 0x4020D1B3#32 = .ok (.sra 3 1 2) ∧ decode 0x0000100F#32 = .ok (.fence 0 0 0 0 1 0) ∧
  decode 0xB00022F3#32 = .ok (.system 0xB00 0 2 5) ∧ decode 0x0020A463#32 = .error .branchFunct3 ∧
  decode 0x8040D193#32 = .error .shiftFunct7 ∧ decode 0x00000000#32 = .error .opcode

/-! ## Registers and memory -/

/-- R23, R24: reading and writing a register, index 0 by `X0_HARDWIRED`: hardwired, it reads 0 and discards writes; else
it is a register like the others. The host's `ReadReg` gives the same value, as a signed one. -/
def Obligations.RegisterZeroFollowsItsParameter : Prop :=
  ∀ (s : State) (i j : RegIdx) (v : Word),
    (s.cfg.x0Hardwired = true → s.reg 0 = 0 ∧ s.writeReg 0 v = s) ∧
    (s.cfg.x0Hardwired = false ∨ i ≠ 0 → s.reg i = s.regs[i.toNat]'i.isLt ∧ (s.writeReg i v).reg i = v) ∧
    (j ≠ i → (s.writeReg i v).reg j = s.reg j) ∧ BitVec.ofInt 32 (s.hostReadReg i) = s.reg i ∧
    (s.writeReg i v).pc = s.pc ∧ SameElsewhere s (s.writeReg i v)

/-- R41: a read of `n` bytes at any address succeeds exactly when `a + n <= MEM_SIZE`, whatever the alignment,
and gives the bytes from `a` on, the lowest address lowest, with zeros above. -/
def Obligations.ReadsAreLittleEndianAndOnlyRangeChecked : Prop :=
  ∀ (s : State) (a : Nat) (n : Width),
    ((∃ v, s.memRead a n = some v) ↔ a + n.bytes ≤ s.cfg.memSize) ∧
    (∀ v, s.memRead a n = some v →
      v.toNat < 2 ^ (8 * n.bytes) ∧ ∀ k, k < n.bytes → s.readByte (a + k) = some (v.extractLsb' (8 * k) 8))

/-- R43: a write completes exactly when `a + n <= MEM_SIZE`, then sets `MEM[a+k]` to `v[8k+7:8k]` and nothing else. -/
def Obligations.WritesAreLittleEndianAndOnlyRangeChecked : Prop :=
  ∀ (s : State) (a : Nat) (n : Width) (v : Word), s.Sound →
    ((∃ t, s.memWrite a n v = some t) ↔ a + n.bytes ≤ s.cfg.memSize) ∧
    (∀ t, s.memWrite a n v = some t →
      (∀ k, k < n.bytes → t.readByte (a + k) = some (v.extractLsb' (8 * k) 8)) ∧
      (∀ b, b < a ∨ a + n.bytes ≤ b → t.readByte b = s.readByte b) ∧
      t.regs = s.regs ∧ t.pc = s.pc ∧ t.cfg = s.cfg ∧ t.status = s.status ∧ t.draws = s.draws)

/-- R44: after a write that fails, each in-range byte of it holds its old value or its new one and every other byte its
old one; where the first byte is already out of range, memory is unchanged. It holds for every free value. -/
def Obligations.FailedWritesLeaveOldOrNewBytes : Prop :=
  ∀ (s : State) (a : Nat) (n : Width) (v : Word), s.Sound → s.memWrite a n v = none →
    LeftByFailedWrite s (s.partialWrite a n v) a n v ∧ (s.partialWrite a n v).status = s.status ∧
      (s.cfg.memSize ≤ a → (s.partialWrite a n v).mem = s.mem)

/-- R47 (derived there): a read of any width inside the bytes a write stored sees exactly that part of the value. -/
def Obligations.ReadsSeeTheBytesWritten : Prop :=
  ∀ (s t : State) (a d : Nat) (n m : Width) (v : Word), s.Sound → s.memWrite a n v = some t →
    d + m.bytes ≤ n.bytes → t.memRead (a + d) m = some (BitVec.ofNat 32 (v.toNat / 2 ^ (8 * d) % 2 ^ (8 * m.bytes)))

/-! ## The step -/

/-- R105: when the word at the pc decodes to an instruction, a step of a running block is that instruction's meaning at
that state, with nothing around it. -/
def Obligations.StepRunsTheDecodedInstruction : Prop :=
  ∀ (s : State) (w : Word) (i : Instr), s.status = .running → s.memRead s.pc.toNat .word = some w →
    decode w = .ok i → step s = exec i s

/-- R101: the fetch reads the four bytes at the pc, at any alignment, and the step runs the word they make; where they are
not all in range the step raises `OutOfRange(Fetch, pc, 4)` and changes nothing but the status. -/
def Obligations.FetchIsOnlyRangeChecked : Prop :=
  ∀ s : State, s.status = .running →
    (s.pc.toNat + 4 ≤ s.cfg.memSize → ∃ b0 b1 b2 b3 : Byte,
      s.readByte s.pc.toNat = some b0 ∧ s.readByte (s.pc.toNat + 1) = some b1 ∧
      s.readByte (s.pc.toNat + 2) = some b2 ∧ s.readByte (s.pc.toNat + 3) = some b3 ∧
      (∀ i, decode (b3 ++ b2 ++ b1 ++ b0) = .ok i → step s = exec i s) ∧
      (∀ r, decode (b3 ++ b2 ++ b1 ++ b0) = .error r → step s = execUnrecognized (b3 ++ b2 ++ b1 ++ b0) s)) ∧
    (s.cfg.memSize < s.pc.toNat + 4 →
      step s = .fault (.raised (.outOfRange .fetch s.pc .word)
        { s with status := .faulted (.outOfRange .fetch s.pc .word) }))

/-- R106, R282: an unrecognized word advances the pc and changes nothing else under `ILLEGAL_POLICY = NOP`, and raises
`Unrecognized(w)`, changing nothing but the status, under `FAULT`. No word of a reader's program should rest on it where
the spec classes the word by its own choice (R84, notes/assumptions/8.md). -/
def Obligations.UnrecognizedWordsFollowThePolicy : Prop :=
  ∀ (s : State) (w : Word) (r : Reject), s.status = .running → s.memRead s.pc.toNat .word = some w →
    decode w = .error r →
    (s.cfg.illegalPolicy = .nop →
      ∃ t, step s = .next t ∧ t.pc = s.pc + 4 ∧ t.regs = s.regs ∧ SameElsewhere s t) ∧
    (s.cfg.illegalPolicy = .fault →
      step s = .fault (.raised (.unrecognized w) { s with status := .faulted (.unrecognized w) }))

/-- R285: once a step has raised a fault, the state it leaves is faulted with that fault, every step of it is stuck, and
no host write clears that; the host still reads the registers and the pc as they were before the step. -/
def Obligations.AFaultEndsTheRun : Prop :=
  ∀ (s t : State) (f : FaultRecord), step s = .fault (.raised f t) →
    t.status = .faulted f ∧ step t = .fault (.stuck f) ∧ (∀ k, 0 < k → Sys2Proof.core.run k t = .fault (.stuck f)) ∧
      (∀ a n v, (t.hostWrite a n v).2.status = .faulted f) ∧
      t.hostReadPc = s.pc ∧ ∀ i, t.hostReadReg i = (s.reg i).toInt

/-- R284: a step that raises writes no register and does not change the pc; the only bytes it can change are in-range ones
of a store, each then holding the byte of `x[rs2]` that the store would have put there. -/
def Obligations.FaultsArePrecise : Prop :=
  ∀ (s t : State) (f : FaultRecord), s.Sound → step s = .fault (.raised f t) →
    t.regs = s.regs ∧ t.pc = s.pc ∧ t.cfg = s.cfg ∧
    ∀ a, t.readByte a = s.readByte a ∨
      ∃ (w : Word) (addr : Word) (n : Width) (k : Nat),
        s.memRead s.pc.toNat .word = some w ∧ w.extractLsb' 0 7 = 0x23#7 ∧ f = .outOfRange .store addr n ∧
        k < n.bytes ∧ a = addr.toNat + k ∧ a < s.cfg.memSize ∧
        t.readByte a = some ((s.reg (w.extractLsb' 20 5)).extractLsb' (8 * k) 8)

/-- R283 (derived there), with R281's labels: which fault a step raises: the fetch's when the pc is out of range; else
`Unrecognized` of the word fetched, under `FAULT` alone, when it decodes to nothing; else a load's or store's, out of
range. -/
def Obligations.FaultsComeInOrder : Prop :=
  ∀ (s t : State) (f : FaultRecord), step s = .fault (.raised f t) →
    (s.cfg.memSize < s.pc.toNat + 4 → f = .outOfRange .fetch s.pc .word ∧ f.code = 1) ∧
    (∀ w r, s.memRead s.pc.toNat .word = some w → decode w = .error r →
      s.cfg.illegalPolicy = .fault ∧ f = .unrecognized w ∧ f.code = 2) ∧
    (∀ w i, s.memRead s.pc.toNat .word = some w → decode w = .ok i →
      ∃ addr n, s.cfg.memSize < addr.toNat + n.bytes ∧
        ((w.extractLsb' 0 7 = 0x03#7 ∧ f = .outOfRange .load addr n ∧ f.code = 5) ∨
          (w.extractLsb' 0 7 = 0x23#7 ∧ f = .outOfRange .store addr n ∧ f.code = 7)))

/-- DEDUCED from R107 and R280: the block never stops by itself except by a fault, and under `ILLEGAL_POLICY = NOP` a step
of a running block whose pc is in range, and whose word is no load and no store, completes. No instruction is refused. -/
def Obligations.TheBlockStopsOnlyByAFault : Prop :=
  (∀ s r, step s ≠ .refused r) ∧
  (∀ s, s.status = .running → (∃ t, step s = .next t) ∨ ∃ f t, step s = .fault (.raised f t)) ∧
  (∀ s w, s.status = .running → s.cfg.illegalPolicy = .nop → s.memRead s.pc.toNat .word = some w →
    w.extractLsb' 0 7 ≠ 0x03#7 → w.extractLsb' 0 7 ≠ 0x23#7 → ∃ t, step s = .next t)

/-- R265 (derived there): no SYSTEM or MISC-MEM word faults, `ILLEGAL_POLICY = FAULT` included: each only advances the
pc. -/
def Obligations.SystemAndFenceWordsNeverFault : Prop :=
  ∀ (s : State) (w : Word), s.status = .running → s.memRead s.pc.toNat .word = some w →
    w.extractLsb' 0 7 = 0x73#7 ∨ w.extractLsb' 0 7 = 0x0F#7 →
    ∃ t, step s = .next t ∧ t.pc = s.pc + 4 ∧ t.regs = s.regs ∧ SameElsewhere s t

/-! ## Whole-machine rules -/

/-- DEDUCED from R40, R41 and R43; the canonical form is the model's own (notes/assumptions/5.md): a sound state steps to
a sound state, and a fault leaves a sound state too. -/
def Obligations.StepKeepsTheStateSound : Prop :=
  ∀ s : State, s.Sound →
    (∀ t, step s = .next t → t.Sound) ∧ (∀ f t, step s = .fault (.raised f t) → t.Sound)

/-- DEDUCED from R300: a block constructed with a capacity the spec allows is sound, `State.reset` among them. -/
def Obligations.ConstructionIsSound : Prop :=
  State.reset.Sound ∧
  ∀ (cfg : Config) (image : List Byte) (entryPc : Option Word) (initRegs : Vector Word 32),
    cfg.memSize ≤ 4294967296 → (State.construct cfg image entryPc initRegs).Sound

/-- DEDUCED from R12, R40 and R301: along any run of completed steps the capacity and the other launch parameters never
change, the block stays Running and sound, and no free value is drawn. -/
def Obligations.RunsKeepParametersAndSoundness : Prop :=
  ∀ (k : Nat) (s t : State), s.status = .running → s.Sound → RunsTo k s t →
    t.cfg = s.cfg ∧ t.status = .running ∧ t.Sound ∧ t.draws = s.draws

/-- DEDUCED from R25: a completed step changes at most the register its word's rd field names, and none at all where the
word is a branch, a store, a fence or system word, or unrecognized. -/
def Obligations.AStepWritesAtMostItsDestination : Prop :=
  ∀ (s t : State) (w : Word), s.memRead s.pc.toNat .word = some w → step s = .next t →
    (∀ r, r ≠ w.extractLsb' 7 5 → t.reg r = s.reg r) ∧
    (w.extractLsb' 0 7 ∈ [0x63#7, 0x23#7, 0x0F#7, 0x73#7] ∨ (∃ e, decode w = .error e) → t.regs = s.regs)

/-- DEDUCED from R9 and R51: a completed step changes memory only where its word is a store, and then at most four bytes
from the store's address on. -/
def Obligations.OnlyStoresChangeMemory : Prop :=
  ∀ (s t : State) (w : Word), s.memRead s.pc.toNat .word = some w → step s = .next t →
    (w.extractLsb' 0 7 ≠ 0x23#7 → ∀ a, t.readByte a = s.readByte a) ∧
    (∀ a, (a < (storeAddr s (w.extractLsb' 15 5) (w.extractLsb' 25 7 ++ w.extractLsb' 7 5)).toNat ∨
        (storeAddr s (w.extractLsb' 15 5) (w.extractLsb' 25 7 ++ w.extractLsb' 7 5)).toNat + 4 ≤ a) →
      t.readByte a = s.readByte a)

/-- DEDUCED from R25 and R108: a step reads no register but those its word's rs1 and rs2 fields name. Two running blocks
with the same pc, parameters, memory and draw counter, that agree on those two registers, step alike: to the same pc and
memory with every register either equal in both or unchanged in each, or to the same fault with the same memory left. -/
def Obligations.AStepReadsOnlyItsSources : Prop :=
  ∀ (s₁ s₂ : State) (w : Word), s₁.status = .running → s₂.status = .running → s₁.cfg = s₂.cfg → s₁.pc = s₂.pc →
    s₁.mem = s₂.mem → s₁.draws = s₂.draws → s₁.memRead s₁.pc.toNat .word = some w →
    s₁.reg (w.extractLsb' 15 5) = s₂.reg (w.extractLsb' 15 5) →
    s₁.reg (w.extractLsb' 20 5) = s₂.reg (w.extractLsb' 20 5) →
    (∃ t₁ t₂, step s₁ = .next t₁ ∧ step s₂ = .next t₂ ∧ t₁.pc = t₂.pc ∧ t₁.mem = t₂.mem ∧
      ∀ r, t₁.reg r = t₂.reg r ∨ (t₁.reg r = s₁.reg r ∧ t₂.reg r = s₂.reg r)) ∨
    (∃ f t₁ t₂, step s₁ = .fault (.raised f t₁) ∧ step s₂ = .fault (.raised f t₂) ∧ t₁.mem = t₂.mem)

/-- R59, R308: a store is seen by the fetch after it, with no fence between: after SB, SH or SW, each byte of the next
word is the byte stored where the store reached it, and the old byte where it did not. -/
def Obligations.AFetchSeesTheStoreBeforeIt : Prop :=
  ∀ (s : State) (rs1 rs2 : RegIdx) (imm : BitVec 12) (i : Instr) (n : Width) (a p : Nat), s.Sound →
    (i, n) ∈ [(.sb rs1 rs2 imm, Width.byte), (.sh rs1 rs2 imm, .half), (.sw rs1 rs2 imm, .word)] →
    a = (storeAddr s rs1 imm).toNat → p = (s.pc + 4).toNat → a + n.bytes ≤ s.cfg.memSize → p + 4 ≤ s.cfg.memSize →
    ∃ t w, exec i s = .next t ∧ fetch t = some w ∧ ∀ k, k < 4 →
      (a ≤ p + k ∧ p + k < a + n.bytes →
        w.extractLsb' (8 * k) 8 = (s.reg rs2).extractLsb' (8 * (p + k - a)) 8) ∧
      (p + k < a ∨ a + n.bytes ≤ p + k → s.readByte (p + k) = some (w.extractLsb' (8 * k) 8))

/-! ## Construction, the host and the end of a run -/

/-- R300: construction sets the pc, the registers, the status and every byte of memory: the image from address 0, cut at
the capacity, and zeros after it; nothing at or beyond the capacity exists. -/
def Obligations.ConstructionLoadsTheImage : Prop :=
  ∀ (cfg : Config) (image : List Byte) (entryPc : Option Word) (initRegs : Vector Word 32) (s : State),
    s = State.construct cfg image entryPc initRegs →
    s.cfg = cfg ∧ s.regs = initRegs ∧ s.status = .running ∧
    (∀ e, entryPc = some e → s.pc = e) ∧ (entryPc = none → s.pc = 0) ∧
    (∀ a, a < cfg.memSize → s.readByte a = some (image.getD a 0)) ∧
    (∀ a, cfg.memSize ≤ a → s.readByte a = none)

/-- The model's choice, notes/assumptions/2.md to 4.md: `State.reset` is a construction with no image and no entry point,
default parameters (R12), the largest capacity and registers of zero, the last two being the model's choice. -/
def Obligations.ResetIsADefaultConstruction : Prop :=
  State.reset = State.construct
    { memSize := 4294967296, x0Hardwired := false, loadSignExtend := false, illegalPolicy := .nop, jalrLinkFirst := true }
    [] none (Vector.replicate 32 0) ∧
  (∀ i : RegIdx, State.reset.reg i = 0) ∧ ∀ a, a < 4294967296 → State.reset.readByte a = some 0

/-- R302 (derived there), R45: a block whose entry point is out of range, a zero-capacity one always, raises the fetch
fault at its first step. -/
def Obligations.EntryOutOfRangeFaultsAtOnce : Prop :=
  ∀ (cfg : Config) (image : List Byte) (entryPc : Word) (initRegs : Vector Word 32),
    cfg.memSize < entryPc.toNat + 4 ∨ cfg.memSize = 0 →
    ∃ t, step (State.construct cfg image (some entryPc) initRegs) =
      .fault (.raised (.outOfRange .fetch entryPc .word) t)

/-- R303 (derived there): past the image memory is zero, and under `ILLEGAL_POLICY = NOP` a run of `k` zero words moves
the pc by `4k` and changes nothing else. -/
def Obligations.ZeroWordsRunAsNoOps : Prop :=
  ∀ (k : Nat) (s : State), s.status = .running → s.cfg.illegalPolicy = .nop → s.cfg.memSize ≤ 4294967296 →
    s.pc.toNat + 4 * k ≤ s.cfg.memSize →
    (∀ a, s.pc.toNat ≤ a → a < s.pc.toNat + 4 * k → s.readByte a = some 0) →
    RunsTo k s { s with pc := BitVec.ofNat 32 (s.pc.toNat + 4 * k) }

/-- R296, R8, R17: the host reads what an instruction reads, registers as signed values; its write has the core's range
check; and a failed operation leaves status, pc and registers as they were, and of memory what any failed write leaves. -/
def Obligations.HostOperationsFollowTheContract : Prop :=
  ∀ (s : State) (i : RegIdx) (a : Word) (n : Width) (v : Word), s.Sound →
    s.hostReadPc = s.pc ∧ BitVec.ofInt 32 (s.hostReadReg i) = s.reg i ∧
    -2147483648 ≤ s.hostReadReg i ∧ s.hostReadReg i < 2147483648 ∧
    ((∃ x, s.hostRead a n = some x) ↔ a.toNat + n.bytes ≤ s.cfg.memSize) ∧
    (∀ x, s.hostRead a n = some x → ∀ k, k < n.bytes → s.readByte (a.toNat + k) = some (x.extractLsb' (8 * k) 8)) ∧
    (a.toNat + n.bytes ≤ s.cfg.memSize → ∃ t, s.hostWrite a n v = (.done, t) ∧
      t.regs = s.regs ∧ t.pc = s.pc ∧ t.cfg = s.cfg ∧ t.status = s.status ∧
      (∀ k, k < n.bytes → t.readByte (a.toNat + k) = some (v.extractLsb' (8 * k) 8)) ∧
      (∀ b, b < a.toNat ∨ a.toNat + n.bytes ≤ b → t.readByte b = s.readByte b)) ∧
    (s.cfg.memSize < a.toNat + n.bytes → ∃ t, s.hostWrite a n v = (.outOfRange, t) ∧
      t.status = s.status ∧ LeftByFailedWrite s t a.toNat n v)

/-- R306: how a run goes, with `STOP_PC`, `MAX_STEPS`, both or neither given. Within any number of steps it has not ended,
with neither condition met so far; or the host stopped it at the first `STOP_PC`, or after `MAX_STEPS` completed steps;
or the step after the completed ones raised a fault; and an end, once reached, is the end. That a run which meets both
conditions at once reports `STOP_PC` is the model's choice (notes/assumptions/15.md). -/
def Obligations.ARunEndsByAFaultOrByTheHost : Prop :=
  ∀ (stopPc : Option Word) (maxSteps : Option Nat) (fuel : Nat) (s : State), s.status = .running →
    (∀ e, runHost stopPc maxSteps fuel s = some e →
      runHost stopPc maxSteps (fuel + 1) s = some e ∧ ∀ e', RunEndsWith stopPc maxSteps s e' → e' = e) ∧
    ((∃ t, runHost stopPc maxSteps fuel s = none ∧ RunsTo fuel s t ∧ (∀ n, maxSteps = some n → fuel < n) ∧
        ∀ j u, j ≤ fuel → RunsTo j s u → stopPc ≠ some u.pc) ∨
      (∃ t k, runHost stopPc maxSteps fuel s = some (.stopPc t) ∧ k ≤ fuel ∧ RunsTo k s t ∧ stopPc = some t.pc ∧
        (∀ n, maxSteps = some n → k ≤ n) ∧ ∀ j u, j < k → RunsTo j s u → stopPc ≠ some u.pc) ∨
      (∃ t n, runHost stopPc maxSteps fuel s = some (.maxSteps t) ∧ n ≤ fuel ∧ maxSteps = some n ∧ RunsTo n s t ∧
        ∀ j u, j ≤ n → RunsTo j s u → stopPc ≠ some u.pc) ∨
      (∃ f t u k, runHost stopPc maxSteps fuel s = some (.fault f t) ∧ k < fuel ∧ RunsTo k s u ∧ FaultsWith u f t ∧
        (∀ n, maxSteps = some n → k < n) ∧ ∀ j v, j ≤ k → RunsTo j s v → stopPc ≠ some v.pc))

/-! ## Sequences -/

/-- R93 (derived there): the split of a 32-bit constant is exact, and `lui rd, hi20` then `addi rd, rd, lo12` leaves the
constant in rd, unless rd is a hardwired x0. -/
def Obligations.UpperAndLowerPartsRebuildAConstant : Prop :=
  ∀ (v : Word) (s : State) (rd : RegIdx) (lo12 : BitVec 12) (hi20 : BitVec 20),
    lo12 = v.extractLsb' 0 12 → hi20 = ((v - lo12.signExtend 32) >>> 12).extractLsb' 0 20 →
    immU hi20 + immI lo12 = v ∧
    ∃ t u, exec (.lui rd hi20) s = .next t ∧ exec (.addi rd rd lo12) t = .next u ∧ u.pc = s.pc + 8 ∧
      (¬(s.cfg.x0Hardwired = true ∧ rd = 0) → u.reg rd = v) ∧ ∀ r, r ≠ rd → u.reg r = s.reg r

/-- R94 (derived there): the standard call sequence `auipc x1, hi20; jalr x1, lo12(x1)` at `p` goes to
`(p + 8 + lo12) & ~1` under `JALR_LINK_FIRST`, and to `(p + immU + lo12) & ~1` without it, with `p + 8` in x1 either way. -/
def Obligations.TheCallSequenceDependsOnTheLinkOrder : Prop :=
  ∀ (s : State) (hi20 : BitVec 20) (lo12 : BitVec 12),
    ∃ t u, exec (.auipc 1 hi20) s = .next t ∧ exec (.jalr 1 1 lo12) t = .next u ∧ u.reg 1 = s.pc + 8 ∧
      (s.cfg.jalrLinkFirst = true → u.pc = (s.pc + 8 + immI lo12) &&& 0xFFFFFFFE#32) ∧
      (s.cfg.jalrLinkFirst = false → u.pc = (s.pc + immU hi20 + immI lo12) &&& 0xFFFFFFFE#32)
end

