-- ==== Sys2Proof/Laws/Memory.lean ====
section
/-! SUPPORT. Memory as a canonical list: every operation keeps the form, a written byte reads back, and every other byte
is left alone. -/

namespace Sys2Proof.Machine

@[simp] theorem Memory.get_nil (a : Nat) : Memory.get [] a = 0 := rfl

theorem Memory.get_cons (b : Nat) (w : Byte) (m : Memory) (a : Nat) :
    Memory.get ((b, w) :: m) a = if a = b then w else Memory.get m a := rfl

/-! ## The canonical form -/

@[simp] theorem Memory.wfFrom_nil (lo : Nat) : Memory.wfFrom lo [] = true := rfl

theorem Memory.wfFrom_cons {lo a : Nat} {v : Byte} {m : Memory} :
    Memory.wfFrom lo ((a, v) :: m) = true ↔ lo ≤ a ∧ v ≠ 0 ∧ Memory.wfFrom (a + 1) m = true := by
  simp [Memory.wfFrom, and_assoc]

theorem Memory.wfFrom_mono {lo lo' : Nat} {m : Memory} (hle : lo' ≤ lo) (h : Memory.wfFrom lo m = true) :
    Memory.wfFrom lo' m = true := by
  cases m with
  | nil => rfl
  | cons c m =>
    obtain ⟨h1, h2, h3⟩ := Memory.wfFrom_cons.mp h
    exact Memory.wfFrom_cons.mpr ⟨hle.trans h1, h2, h3⟩

/-- Below where a canonical memory starts, everything reads 0x00. -/
theorem Memory.get_of_wfFrom {lo a : Nat} {m : Memory} (h : Memory.wfFrom lo m = true) (ha : a < lo) :
    Memory.get m a = 0 := by
  induction m generalizing lo with
  | nil => rfl
  | cons c m ih =>
    obtain ⟨h1, -, h3⟩ := Memory.wfFrom_cons.mp h
    rw [Memory.get_cons, if_neg (by omega), ih h3 (by omega)]

theorem Memory.wfFrom_set {lo a : Nat} {m : Memory} (v : Byte) (h : Memory.wfFrom lo m = true) (ha : lo ≤ a) :
    Memory.wfFrom lo (Memory.set m a v) = true := by
  induction m generalizing lo with
  | nil =>
    unfold Memory.set
    split
    · rfl
    · exact Memory.wfFrom_cons.mpr ⟨ha, ‹_›, rfl⟩
  | cons c m ih =>
    obtain ⟨b, w⟩ := c
    obtain ⟨h1, h2, h3⟩ := Memory.wfFrom_cons.mp h
    unfold Memory.set
    split_ifs with hlt hv heq hv
    · exact h
    · exact Memory.wfFrom_cons.mpr ⟨ha, hv, Memory.wfFrom_cons.mpr ⟨hlt, h2, h3⟩⟩
    · exact Memory.wfFrom_mono (by omega) h3
    · exact Memory.wfFrom_cons.mpr ⟨ha, hv, heq ▸ h3⟩
    · exact Memory.wfFrom_cons.mpr ⟨h1, h2, ih h3 (by omega)⟩

/-- Setting a byte keeps the canonical form. -/
theorem Memory.wf_set {m : Memory} (a : Nat) (v : Byte) (h : m.wf = true) : (m.set a v).wf = true :=
  Memory.wfFrom_set v h (Nat.zero_le a)

theorem Memory.within_cons {size a : Nat} {v : Byte} {m : Memory} :
    Memory.within size ((a, v) :: m) = true ↔ a < size ∧ Memory.within size m = true := by
  simp [Memory.within]

/-- Setting a byte below the capacity lists nothing at or beyond it. -/
theorem Memory.within_set {size a : Nat} {m : Memory} (v : Byte) (h : m.within size = true) (ha : a < size) :
    (m.set a v).within size = true := by
  induction m with
  | nil =>
    unfold Memory.set
    split
    · rfl
    · exact Memory.within_cons.mpr ⟨ha, rfl⟩
  | cons c m ih =>
    obtain ⟨hb, hm⟩ := Memory.within_cons.mp h
    unfold Memory.set
    split_ifs
    · exact h
    · exact Memory.within_cons.mpr ⟨ha, h⟩
    · exact hm
    · exact Memory.within_cons.mpr ⟨ha, hm⟩
    · exact Memory.within_cons.mpr ⟨hb, ih hm⟩

theorem Memory.wfFrom_ofBytes (a : Nat) (bytes : List Byte) : Memory.wfFrom a (Memory.ofBytes a bytes) = true := by
  induction bytes generalizing a with
  | nil => rfl
  | cons v rest ih =>
    unfold Memory.ofBytes
    split
    · exact Memory.wfFrom_mono (Nat.le_succ a) (ih (a + 1))
    · exact Memory.wfFrom_cons.mpr ⟨le_refl a, ‹_›, ih (a + 1)⟩

/-- An image's memory is canonical. -/
theorem Memory.wf_ofBytes (a : Nat) (bytes : List Byte) : (Memory.ofBytes a bytes).wf = true :=
  Memory.wfFrom_mono (Nat.zero_le a) (Memory.wfFrom_ofBytes a bytes)

theorem Memory.within_ofBytes {size a : Nat} {bytes : List Byte} (h : a + bytes.length ≤ size) :
    (Memory.ofBytes a bytes).within size = true := by
  induction bytes generalizing a with
  | nil => rfl
  | cons v rest ih =>
    have hr : a + 1 + rest.length ≤ size := by simp at h; omega
    unfold Memory.ofBytes
    split
    · exact ih hr
    · exact Memory.within_cons.mpr ⟨by omega, ih hr⟩

theorem wf_placeBytes {m : Memory} (a : Nat) (bytes : List Byte) (h : m.wf = true) : (placeBytes m a bytes).wf = true := by
  induction bytes generalizing m a with
  | nil => exact h
  | cons v rest ih => exact ih (a + 1) (Memory.wf_set a v h)

/-! ## Read after write -/

/-- A byte that is set leaves every other byte alone, in any memory. -/
theorem Memory.get_set_other {m : Memory} {a b : Nat} (v : Byte) (h : b ≠ a) : (m.set a v).get b = m.get b := by
  induction m with
  | nil => unfold Memory.set; split <;> simp_all [Memory.get]
  | cons c m ih =>
    obtain ⟨d, w⟩ := c
    unfold Memory.set
    split_ifs <;> simp_all [Memory.get]

/-- A byte that is set reads back, in a canonical memory. -/
theorem Memory.get_set_same {m : Memory} {lo a : Nat} (v : Byte) (h : Memory.wfFrom lo m = true) :
    (m.set a v).get a = v := by
  induction m generalizing lo with
  | nil => unfold Memory.set; split <;> simp_all [Memory.get]
  | cons c m ih =>
    obtain ⟨d, w⟩ := c
    obtain ⟨-, -, h3⟩ := Memory.wfFrom_cons.mp h
    unfold Memory.set
    split_ifs with hlt hv heq hv
    · rw [Memory.get_cons, if_neg (by omega), hv, Memory.get_of_wfFrom h3 (by omega)]
    · simp [Memory.get]
    · rw [hv, Memory.get_of_wfFrom h3 (by omega)]
    · simp [Memory.get]
    · rw [Memory.get_cons, if_neg heq]; exact ih h3

/-- The whole of a set byte's effect on reading. -/
theorem Memory.get_set {m : Memory} (a b : Nat) (v : Byte) (h : m.wf = true) :
    (m.set a v).get b = if b = a then v else m.get b := by
  split
  · subst b; exact Memory.get_set_same v h
  · exact Memory.get_set_other v ‹_›

/-- What an image's memory reads as. -/
theorem Memory.get_ofBytes (a : Nat) (bytes : List Byte) (k : Nat) :
    (Memory.ofBytes a bytes).get (a + k) = bytes.getD k 0 := by
  induction bytes generalizing a k with
  | nil => rfl
  | cons v rest ih =>
    unfold Memory.ofBytes
    cases k with
    | zero =>
      split
      · rw [Memory.get_of_wfFrom (Memory.wfFrom_ofBytes (a + 1) rest) (by omega)]; simp_all
      · simp [Memory.get]
    | succ k =>
      have e : a + (k + 1) = a + 1 + k := by omega
      split
      · rw [e, ih]; simp
      · rw [Memory.get_cons, if_neg (by omega), e, ih]; simp

end Sys2Proof.Machine
end

