-- ==== Sys2Proof/Laws/State.lean ====
section
/-! SUPPORT. One lemma per field per update of State, and the register port's laws (10_state.md R23, R24). -/

namespace Sys2Proof.Machine

/-! ## setPc -/

@[simp] theorem State.setPc_pc (s : State) (t : Word) : (s.setPc t).pc = t := rfl
@[simp] theorem State.setPc_cfg (s : State) (t : Word) : (s.setPc t).cfg = s.cfg := rfl
@[simp] theorem State.setPc_regs (s : State) (t : Word) : (s.setPc t).regs = s.regs := rfl
@[simp] theorem State.setPc_mem (s : State) (t : Word) : (s.setPc t).mem = s.mem := rfl
@[simp] theorem State.setPc_status (s : State) (t : Word) : (s.setPc t).status = s.status := rfl
@[simp] theorem State.setPc_draws (s : State) (t : Word) : (s.setPc t).draws = s.draws := rfl
@[simp] theorem State.setPc_reg (s : State) (t : Word) (i : RegIdx) : (s.setPc t).reg i = s.reg i := rfl
@[simp] theorem State.setPc_readByte (s : State) (t : Word) (a : Nat) : (s.setPc t).readByte a = s.readByte a := rfl
@[simp] theorem State.nextPc_eq (s : State) : s.nextPc = s.pc + 4 := rfl

/-! ## writeReg -/

@[simp] theorem State.writeReg_pc (s : State) (i : RegIdx) (v : Word) : (s.writeReg i v).pc = s.pc := by
  unfold State.writeReg; split <;> rfl
@[simp] theorem State.writeReg_cfg (s : State) (i : RegIdx) (v : Word) : (s.writeReg i v).cfg = s.cfg := by
  unfold State.writeReg; split <;> rfl
@[simp] theorem State.writeReg_mem (s : State) (i : RegIdx) (v : Word) : (s.writeReg i v).mem = s.mem := by
  unfold State.writeReg; split <;> rfl
@[simp] theorem State.writeReg_status (s : State) (i : RegIdx) (v : Word) : (s.writeReg i v).status = s.status := by
  unfold State.writeReg; split <;> rfl
@[simp] theorem State.writeReg_draws (s : State) (i : RegIdx) (v : Word) : (s.writeReg i v).draws = s.draws := by
  unfold State.writeReg; split <;> rfl
@[simp] theorem State.writeReg_readByte (s : State) (i : RegIdx) (v : Word) (a : Nat) :
    (s.writeReg i v).readByte a = s.readByte a := by
  simp [State.readByte]

/-- A hardwired index 0 discards the write and leaves the whole state as it was. -/
theorem State.writeReg_discarded {s : State} {i : RegIdx} (v : Word) (h : s.cfg.x0Hardwired = true ∧ i = 0) :
    s.writeReg i v = s := by
  simp [State.writeReg, h.1, h.2]

/-- Every other write sets the one register. -/
theorem State.writeReg_kept {s : State} {i : RegIdx} (v : Word) (h : ¬(s.cfg.x0Hardwired = true ∧ i = 0)) :
    s.writeReg i v = { s with regs := s.regs.set i.toNat v i.isLt } := by
  have hw : (s.cfg.x0Hardwired && i == 0) = false := by simpa using h
  rw [State.writeReg, hw]
  rfl

/-- A hardwired index 0 reads 0. -/
theorem State.reg_hardwired {s : State} {i : RegIdx} (h : s.cfg.x0Hardwired = true ∧ i = 0) : s.reg i = 0 := by
  simp [State.reg, h.1, h.2]

/-- Every other register reads what it holds. -/
theorem State.reg_eq_get {s : State} {i : RegIdx} (h : ¬(s.cfg.x0Hardwired = true ∧ i = 0)) :
    s.reg i = s.regs[i.toNat]'i.isLt := by
  simp_all [State.reg]

/-- A register that is written reads back, but for a hardwired index 0. -/
theorem State.reg_writeReg_same {s : State} {i : RegIdx} (v : Word) (h : ¬(s.cfg.x0Hardwired = true ∧ i = 0)) :
    (s.writeReg i v).reg i = v := by
  rw [State.reg_eq_get (by simpa using h)]
  simp [State.writeReg_kept v h]

/-- A write leaves every other register alone. -/
theorem State.reg_writeReg_other {s : State} {i j : RegIdx} (v : Word) (h : j ≠ i) :
    (s.writeReg i v).reg j = s.reg j := by
  have hn : i.toNat ≠ j.toNat := fun e => h (BitVec.eq_of_toNat_eq e.symm)
  by_cases hw : s.cfg.x0Hardwired = true ∧ i = 0
  · rw [State.writeReg_discarded v hw]
  · rw [State.writeReg_kept v hw]
    simp [State.reg, hn]

/-! ## Changing memory alone -/

theorem State.reg_withMem (s : State) (m : Memory) (i : RegIdx) : ({ s with mem := m } : State).reg i = s.reg i := rfl

/-- Reading a byte depends on the capacity and the memory alone. -/
theorem State.readByte_congr {s t : State} (hc : t.cfg = s.cfg) (hm : t.mem = s.mem) (a : Nat) :
    t.readByte a = s.readByte a := by
  simp [State.readByte, hc, hm]

/-! ## Reset -/

@[simp] theorem State.reset_pc : State.reset.pc = 0 := rfl
@[simp] theorem State.reset_cfg : State.reset.cfg = Config.default Config.maxMemSize := rfl
@[simp] theorem State.reset_mem : State.reset.mem = [] := rfl
@[simp] theorem State.reset_status : State.reset.status = .running := rfl

end Sys2Proof.Machine
end

