-- ==== Sys2Proof/Laws/Access.lean ====
section
/-! SUPPORT. What each memory operation of 20_memory.md R41 to R44 can do, said once. -/

namespace Sys2Proof.Machine

@[simp] theorem Width.bytes_byte : Width.byte.bytes = 1 := rfl
@[simp] theorem Width.bytes_half : Width.half.bytes = 2 := rfl
@[simp] theorem Width.bytes_word : Width.word.bytes = 4 := rfl

/-! ## Reads -/

theorem State.readByte_of_lt {s : State} {a : Nat} (h : a < s.cfg.memSize) : s.readByte a = some (s.mem.get a) := by
  simp [State.readByte, Nat.not_le.mpr h]

theorem State.readByte_of_ge {s : State} {a : Nat} (h : s.cfg.memSize ≤ a) : s.readByte a = none := by
  simp [State.readByte, h]

theorem State.readByte_eq_some {s : State} {a : Nat} {b : Byte} :
    s.readByte a = some b ↔ a < s.cfg.memSize ∧ s.mem.get a = b := by
  by_cases h : a < s.cfg.memSize
  · simp [State.readByte_of_lt h, h]
  · simp [State.readByte_of_ge (Nat.not_lt.mp h), h]

/-- The value an in-range read gives (R41). -/
def Memory.readValue (m : Memory) (a : Nat) : Width → Word
  | .byte => (m.get a).setWidth 32
  | .half => (m.get (a + 1) ++ m.get a).setWidth 32
  | .word => (m.get (a + 3) ++ m.get (a + 2)) ++ (m.get (a + 1) ++ m.get a)

/-- A read whose bytes are all in range gives their composition. -/
theorem State.memRead_of_le {s : State} {a : Nat} {n : Width} (h : a + n.bytes ≤ s.cfg.memSize) :
    s.memRead a n = some (s.mem.readValue a n) := by
  cases n <;> simp only [Width.bytes] at h
  · simp [State.memRead, State.readByte_of_lt (s := s) (a := a) (by omega), Memory.readValue]
  · simp [State.memRead, State.readHalfWord, State.readByte_of_lt (s := s) (a := a) (by omega),
      State.readByte_of_lt (s := s) (a := a + 1) (by omega), Memory.readValue]
  · simp [State.memRead, State.readWord, State.readHalfWord, State.readByte_of_lt (s := s) (a := a) (by omega),
      State.readByte_of_lt (s := s) (a := a + 1) (by omega), State.readByte_of_lt (s := s) (a := a + 2) (by omega),
      State.readByte_of_lt (s := s) (a := a + 2 + 1) (by omega), Memory.readValue]

/-- A read with a byte out of range fails. -/
theorem State.memRead_of_gt {s : State} {a : Nat} {n : Width} (h : s.cfg.memSize < a + n.bytes) :
    s.memRead a n = none := by
  cases n <;> simp only [Width.bytes] at h
  · simp [State.memRead, State.readByte_of_ge (s := s) (a := a) (by omega)]
  · simp [State.memRead, State.readHalfWord, State.readByte_of_ge (s := s) (a := a + 1) (by omega)]
  · simp [State.memRead, State.readWord, State.readHalfWord, State.readByte_of_ge (s := s) (a := a + 2 + 1) (by omega)]

/-- The read's outcome, both ways. -/
theorem State.memRead_eq_some {s : State} {a : Nat} {n : Width} {v : Word} :
    s.memRead a n = some v ↔ a + n.bytes ≤ s.cfg.memSize ∧ s.mem.readValue a n = v := by
  by_cases h : a + n.bytes ≤ s.cfg.memSize
  · simp [State.memRead_of_le h, h]
  · simp [State.memRead_of_gt (Nat.not_le.mp h), h]

theorem State.memRead_congr {s t : State} (hc : t.cfg = s.cfg) (hm : t.mem = s.mem) (a : Nat) (n : Width) :
    t.memRead a n = s.memRead a n := by
  by_cases h : a + n.bytes ≤ s.cfg.memSize
  · rw [State.memRead_of_le h, State.memRead_of_le (by rw [hc]; exact h), hm]
  · rw [State.memRead_of_gt (Nat.not_le.mp h), State.memRead_of_gt (by rw [hc]; exact Nat.not_le.mp h)]

/-! ## Writes -/

/-- The memory with the first `k` bytes of `v` stored from `a` on (R43). -/
def Memory.stored (m : Memory) (a : Nat) (v : Word) : Nat → Memory
  | 0 => m
  | k + 1 => (Memory.stored m a v k).set (a + k) (byteOf v k)

theorem Memory.wf_stored {m : Memory} (a : Nat) (v : Word) (k : Nat) (h : m.wf = true) :
    (m.stored a v k).wf = true := by
  induction k with
  | zero => exact h
  | succ k ih => exact Memory.wf_set _ _ ih

theorem Memory.within_stored {size : Nat} {m : Memory} {a : Nat} (v : Word) {k : Nat} (h : m.within size = true)
    (hk : a + k ≤ size) : (m.stored a v k).within size = true := by
  induction k with
  | zero => exact h
  | succ k ih => exact Memory.within_set _ (ih (by omega)) (by omega)

/-- Bytes outside those stored are left alone, in any memory. -/
theorem Memory.get_stored_other {m : Memory} {a b : Nat} (v : Word) {k : Nat} (h : b < a ∨ a + k ≤ b) :
    (m.stored a v k).get b = m.get b := by
  induction k with
  | zero => rfl
  | succ k ih => rw [Memory.stored, Memory.get_set_other _ (by omega), ih (by omega)]

/-- Stored bytes read back, in a canonical memory. -/
theorem Memory.get_stored {m : Memory} {a j : Nat} (v : Word) {k : Nat} (hm : m.wf = true) (hj : j < k) :
    (m.stored a v k).get (a + j) = byteOf v j := by
  induction k with
  | zero => omega
  | succ k ih =>
    rw [Memory.stored, Memory.get_set _ _ _ (Memory.wf_stored a v k hm)]
    by_cases e : j = k
    · simp [e]
    · rw [if_neg (by omega), ih (by omega)]

theorem State.writeByte_of_lt {s : State} {a : Nat} (v : Byte) (h : a < s.cfg.memSize) :
    s.writeByte a v = some { s with mem := s.mem.set a v } := by
  simp [State.writeByte, Nat.not_le.mpr h]

theorem State.writeByte_of_ge {s : State} {a : Nat} (v : Byte) (h : s.cfg.memSize ≤ a) : s.writeByte a v = none := by
  simp [State.writeByte, h]

theorem byteOf_low_half (v : Word) : (v.extractLsb' 0 16).extractLsb' 0 8 = byteOf v 0 := by
  ext i hi; simp [byteOf]
theorem byteOf_low_half_high (v : Word) : (v.extractLsb' 0 16).extractLsb' 8 8 = byteOf v 1 := by
  ext i hi; simp [byteOf]
theorem byteOf_high_half (v : Word) : (v.extractLsb' 16 16).extractLsb' 0 8 = byteOf v 2 := by
  ext i hi; simp [byteOf]; omega
theorem byteOf_high_half_high (v : Word) : (v.extractLsb' 16 16).extractLsb' 8 8 = byteOf v 3 := by
  ext i hi; simp [byteOf, ← Nat.add_assoc]; omega

/-- A write whose bytes are all in range stores them. -/
theorem State.memWrite_of_le {s : State} {a : Nat} {n : Width} (v : Word) (h : a + n.bytes ≤ s.cfg.memSize) :
    s.memWrite a n v = some { s with mem := s.mem.stored a v n.bytes } := by
  cases n <;> simp only [Width.bytes] at h
  · rw [State.memWrite, State.writeByte_of_lt _ (by omega)]
    rfl
  · simp only [State.memWrite, State.writeHalfWord, State.writeByte_of_lt (s := s) (a := a) _ (by omega)]
    rw [State.writeByte_of_lt _ (by simp; omega), byteOf_low_half, byteOf_low_half_high]
    rfl
  · simp only [State.memWrite, State.writeWord, State.writeHalfWord,
      State.writeByte_of_lt (s := s) (a := a) _ (by omega)]
    rw [State.writeByte_of_lt _ (by simp; omega)]
    simp only []
    rw [State.writeByte_of_lt _ (by simp; omega)]
    simp only []
    rw [State.writeByte_of_lt _ (by simp; omega), byteOf_low_half, byteOf_low_half_high, byteOf_high_half,
      byteOf_high_half_high]
    rfl

theorem State.writeHalfWord_of_gt {s : State} {a : Nat} (v : BitVec 16) (h : s.cfg.memSize < a + 2) :
    s.writeHalfWord a v = none := by
  unfold State.writeHalfWord
  by_cases h0 : a < s.cfg.memSize
  · rw [State.writeByte_of_lt _ h0]
    exact State.writeByte_of_ge _ (by simp; omega)
  · rw [State.writeByte_of_ge _ (by omega)]

/-- A completed half-word write changes memory alone. -/
theorem State.writeHalfWord_cfg {s t : State} {a : Nat} {v : BitVec 16} (h : s.writeHalfWord a v = some t) :
    t.cfg = s.cfg := by
  by_cases h0 : s.cfg.memSize < a + 2
  · rw [State.writeHalfWord_of_gt v h0] at h
    cases h
  · rw [State.writeHalfWord, State.writeByte_of_lt _ (by omega)] at h
    simp only [] at h
    rw [State.writeByte_of_lt _ (by simp; omega)] at h
    cases h
    rfl

/-- A write with a byte out of range fails. -/
theorem State.memWrite_of_gt {s : State} {a : Nat} {n : Width} (v : Word) (h : s.cfg.memSize < a + n.bytes) :
    s.memWrite a n v = none := by
  cases n <;> simp only [Width.bytes] at h
  · exact State.writeByte_of_ge _ (by omega)
  · exact State.writeHalfWord_of_gt _ h
  · simp only [State.memWrite, State.writeWord]
    cases hw : s.writeHalfWord a (v.extractLsb' 0 16) with
    | none => rfl
    | some t => exact State.writeHalfWord_of_gt _ (by rw [State.writeHalfWord_cfg hw]; omega)

/-- The write's outcome, both ways. -/
theorem State.memWrite_eq_some {s t : State} {a : Nat} {n : Width} {v : Word} :
    s.memWrite a n v = some t ↔ a + n.bytes ≤ s.cfg.memSize ∧ t = { s with mem := s.mem.stored a v n.bytes } := by
  by_cases h : a + n.bytes ≤ s.cfg.memSize
  · simp [State.memWrite_of_le v h, h, eq_comm]
  · simp [State.memWrite_of_gt v (Nat.not_le.mp h), h]

theorem State.memWrite_eq_none {s : State} {a : Nat} {n : Width} {v : Word} :
    s.memWrite a n v = none ↔ s.cfg.memSize < a + n.bytes := by
  by_cases h : a + n.bytes ≤ s.cfg.memSize
  · simp [State.memWrite_of_le v h, h]
  · simp [State.memWrite_of_gt v (Nat.not_le.mp h), Nat.not_le.mp h]

/-! ## Failed writes (R44) -/

/-- The memory after the first `k` bytes of a failed write were drawn. -/
def Memory.drawn (m : Memory) (size draw a : Nat) (v : Word) : Nat → Memory
  | 0 => m
  | k + 1 =>
    if a + k < size ∧ Config.storeDraw draw k = true
    then (Memory.drawn m size draw a v k).set (a + k) (byteOf v k) else Memory.drawn m size draw a v k

/-- A failed write changes memory, as drawn, and the draw counter, and nothing else. -/
theorem State.partialWrite_eq (s : State) (a : Nat) (n : Width) (v : Word) :
    s.partialWrite a n v =
      { s with mem := s.mem.drawn s.cfg.memSize s.draws a v n.bytes, draws := s.draws + 1 } := by
  have h : ∀ k, (List.range k).foldl (fun t j => t.drawByte a v j) s =
      { s with mem := s.mem.drawn s.cfg.memSize s.draws a v k } := by
    intro k
    induction k with
    | zero => rfl
    | succ k ih =>
      rw [List.range_succ, List.foldl_append, ih]
      simp only [List.foldl_cons, List.foldl_nil, State.drawByte, Memory.drawn]
      split <;> rfl
  rw [State.partialWrite, h]

theorem Memory.wf_drawn {m : Memory} (size draw a : Nat) (v : Word) (k : Nat) (h : m.wf = true) :
    (m.drawn size draw a v k).wf = true := by
  induction k with
  | zero => exact h
  | succ k ih =>
    unfold Memory.drawn
    split
    · exact Memory.wf_set _ _ ih
    · exact ih

theorem Memory.within_drawn {m : Memory} (size draw a : Nat) (v : Word) (k : Nat) (h : m.within size = true) :
    (m.drawn size draw a v k).within size = true := by
  induction k with
  | zero => exact h
  | succ k ih =>
    unfold Memory.drawn
    split
    · exact Memory.within_set _ ih (by omega)
    · exact ih

theorem Memory.get_drawn_other {m : Memory} {size draw a b : Nat} {v : Word} {k : Nat} (h : b < a ∨ a + k ≤ b) :
    (m.drawn size draw a v k).get b = m.get b := by
  induction k with
  | zero => rfl
  | succ k ih =>
    unfold Memory.drawn
    split
    · rw [Memory.get_set_other _ (by omega), ih (by omega)]
    · exact ih (by omega)

/-- A byte of a failed write is old or new, in a canonical memory. -/
theorem Memory.get_drawn {m : Memory} {size draw a j : Nat} {v : Word} {k : Nat} (hm : m.wf = true) :
    (m.drawn size draw a v k).get (a + j) = m.get (a + j) ∨
      (j < k ∧ a + j < size ∧ (m.drawn size draw a v k).get (a + j) = byteOf v j) := by
  induction k with
  | zero => exact .inl rfl
  | succ k ih =>
    unfold Memory.drawn
    split
    · rw [Memory.get_set _ _ _ (Memory.wf_drawn size draw a v k hm)]
      by_cases e : j = k
      · subst e; exact .inr ⟨by omega, by omega, by simp⟩
      · rw [if_neg (by omega)]
        exact ih.imp_right fun h => ⟨by omega, h.2.1, h.2.2⟩
    · exact ih.imp_right fun h => ⟨by omega, h.2.1, h.2.2⟩

/-- Where the first byte is out of range, nothing is drawn. -/
theorem Memory.drawn_of_ge {m : Memory} {size draw a : Nat} {v : Word} {k : Nat} (h : size ≤ a) :
    m.drawn size draw a v k = m := by
  induction k with
  | zero => rfl
  | succ k ih => rw [Memory.drawn, if_neg (by omega), ih]

/-! ## Soundness is kept by each operation -/

/-- Soundness depends on the capacity and the memory alone. -/
theorem State.Sound.congr {s t : State} (h : s.Sound) (hc : t.cfg = s.cfg) (hm : t.mem = s.mem) : t.Sound := by
  simpa [State.Sound, hc, hm] using h

theorem State.Sound.stored {s : State} (h : s.Sound) {a : Nat} {n : Width} (v : Word)
    (ha : a + n.bytes ≤ s.cfg.memSize) : ({ s with mem := s.mem.stored a v n.bytes } : State).Sound :=
  ⟨h.1, Memory.wf_stored a v _ h.2.1, Memory.within_stored v h.2.2 ha⟩

theorem State.Sound.partialWrite {s : State} (h : s.Sound) (a : Nat) (n : Width) (v : Word) :
    (s.partialWrite a n v).Sound := by
  rw [State.partialWrite_eq]
  exact ⟨h.1, Memory.wf_drawn _ _ a v _ h.2.1, Memory.within_drawn _ _ a v _ h.2.2⟩

end Sys2Proof.Machine
end

