-- ==== Sys2Proof/Laws/Encoding.lean ====
section
/-! SUPPORT. The fields of an encoded word (30_encoding.md R70 to R76), one lemma per format and field, and the formats
put together again from a word's own fields. -/

namespace Sys2Proof

variable (f7 : BitVec 7) (rs2 rs1 : RegIdx) (f3 : BitVec 3) (rd : RegIdx) (op : BitVec 7)
variable (imm : BitVec 12) (boff : BitVec 13) (joff : BitVec 21) (imm20 : BitVec 20)

@[simp] theorem opcodeOf_encodeR : opcodeOf (encodeR f7 rs2 rs1 f3 rd op) = op := by
  refine BitVec.eq_of_getLsbD_eq fun i hi => ?_
  simp only [opcodeOf, encodeR, BitVec.getLsbD_extractLsb', BitVec.getLsbD_append, -Nat.reduceAdd]
  split_ifs <;> first | omega | (simp only [hi, decide_true, Bool.true_and]; congr 1; omega)

@[simp] theorem rdOf_encodeR : rdOf (encodeR f7 rs2 rs1 f3 rd op) = rd := by
  refine BitVec.eq_of_getLsbD_eq fun i hi => ?_
  simp only [rdOf, encodeR, BitVec.getLsbD_extractLsb', BitVec.getLsbD_append, -Nat.reduceAdd]
  split_ifs <;> first | omega | (simp only [hi, decide_true, Bool.true_and]; congr 1; omega)

@[simp] theorem funct3Of_encodeR : funct3Of (encodeR f7 rs2 rs1 f3 rd op) = f3 := by
  refine BitVec.eq_of_getLsbD_eq fun i hi => ?_
  simp only [funct3Of, encodeR, BitVec.getLsbD_extractLsb', BitVec.getLsbD_append, -Nat.reduceAdd]
  split_ifs <;> first | omega | (simp only [hi, decide_true, Bool.true_and]; congr 1; omega)

@[simp] theorem rs1Of_encodeR : rs1Of (encodeR f7 rs2 rs1 f3 rd op) = rs1 := by
  refine BitVec.eq_of_getLsbD_eq fun i hi => ?_
  simp only [rs1Of, encodeR, BitVec.getLsbD_extractLsb', BitVec.getLsbD_append, -Nat.reduceAdd]
  split_ifs <;> first | omega | (simp only [hi, decide_true, Bool.true_and]; congr 1; omega)

@[simp] theorem rs2Of_encodeR : rs2Of (encodeR f7 rs2 rs1 f3 rd op) = rs2 := by
  refine BitVec.eq_of_getLsbD_eq fun i hi => ?_
  simp only [rs2Of, encodeR, BitVec.getLsbD_extractLsb', BitVec.getLsbD_append, -Nat.reduceAdd]
  split_ifs <;> first | omega | (simp only [hi, decide_true, Bool.true_and]; congr 1; omega)

@[simp] theorem funct7Of_encodeR : funct7Of (encodeR f7 rs2 rs1 f3 rd op) = f7 := by
  refine BitVec.eq_of_getLsbD_eq fun i hi => ?_
  simp only [funct7Of, encodeR, BitVec.getLsbD_extractLsb', BitVec.getLsbD_append, -Nat.reduceAdd]
  split_ifs <;> first | omega | (simp only [hi, decide_true, Bool.true_and]; congr 1; omega)

@[simp] theorem opcodeOf_encodeI : opcodeOf (encodeI imm rs1 f3 rd op) = op := by
  refine BitVec.eq_of_getLsbD_eq fun i hi => ?_
  simp only [opcodeOf, encodeI, BitVec.getLsbD_extractLsb', BitVec.getLsbD_append, -Nat.reduceAdd]
  split_ifs <;> first | omega | (simp only [hi, decide_true, Bool.true_and]; congr 1; omega)

@[simp] theorem rdOf_encodeI : rdOf (encodeI imm rs1 f3 rd op) = rd := by
  refine BitVec.eq_of_getLsbD_eq fun i hi => ?_
  simp only [rdOf, encodeI, BitVec.getLsbD_extractLsb', BitVec.getLsbD_append, -Nat.reduceAdd]
  split_ifs <;> first | omega | (simp only [hi, decide_true, Bool.true_and]; congr 1; omega)

@[simp] theorem funct3Of_encodeI : funct3Of (encodeI imm rs1 f3 rd op) = f3 := by
  refine BitVec.eq_of_getLsbD_eq fun i hi => ?_
  simp only [funct3Of, encodeI, BitVec.getLsbD_extractLsb', BitVec.getLsbD_append, -Nat.reduceAdd]
  split_ifs <;> first | omega | (simp only [hi, decide_true, Bool.true_and]; congr 1; omega)

@[simp] theorem rs1Of_encodeI : rs1Of (encodeI imm rs1 f3 rd op) = rs1 := by
  refine BitVec.eq_of_getLsbD_eq fun i hi => ?_
  simp only [rs1Of, encodeI, BitVec.getLsbD_extractLsb', BitVec.getLsbD_append, -Nat.reduceAdd]
  split_ifs <;> first | omega | (simp only [hi, decide_true, Bool.true_and]; congr 1; omega)

@[simp] theorem immIOf_encodeI : immIOf (encodeI imm rs1 f3 rd op) = imm := by
  refine BitVec.eq_of_getLsbD_eq fun i hi => ?_
  simp only [immIOf, encodeI, BitVec.getLsbD_extractLsb', BitVec.getLsbD_append, -Nat.reduceAdd]
  split_ifs <;> first | omega | (simp only [hi, decide_true, Bool.true_and]; congr 1; omega)

@[simp] theorem opcodeOf_encodeS : opcodeOf (encodeS imm rs2 rs1 f3 op) = op := by
  refine BitVec.eq_of_getLsbD_eq fun i hi => ?_
  simp only [opcodeOf, encodeS, BitVec.getLsbD_extractLsb', BitVec.getLsbD_append, -Nat.reduceAdd]
  split_ifs <;> first | omega | (simp only [hi, decide_true, Bool.true_and]; congr 1; omega)

@[simp] theorem funct3Of_encodeS : funct3Of (encodeS imm rs2 rs1 f3 op) = f3 := by
  refine BitVec.eq_of_getLsbD_eq fun i hi => ?_
  simp only [funct3Of, encodeS, BitVec.getLsbD_extractLsb', BitVec.getLsbD_append, -Nat.reduceAdd]
  split_ifs <;> first | omega | (simp only [hi, decide_true, Bool.true_and]; congr 1; omega)

@[simp] theorem rs1Of_encodeS : rs1Of (encodeS imm rs2 rs1 f3 op) = rs1 := by
  refine BitVec.eq_of_getLsbD_eq fun i hi => ?_
  simp only [rs1Of, encodeS, BitVec.getLsbD_extractLsb', BitVec.getLsbD_append, -Nat.reduceAdd]
  split_ifs <;> first | omega | (simp only [hi, decide_true, Bool.true_and]; congr 1; omega)

@[simp] theorem rs2Of_encodeS : rs2Of (encodeS imm rs2 rs1 f3 op) = rs2 := by
  refine BitVec.eq_of_getLsbD_eq fun i hi => ?_
  simp only [rs2Of, encodeS, BitVec.getLsbD_extractLsb', BitVec.getLsbD_append, -Nat.reduceAdd]
  split_ifs <;> first | omega | (simp only [hi, decide_true, Bool.true_and]; congr 1; omega)

@[simp] theorem opcodeOf_encodeB : opcodeOf (encodeB boff rs2 rs1 f3 op) = op := by
  refine BitVec.eq_of_getLsbD_eq fun i hi => ?_
  simp only [opcodeOf, encodeB, BitVec.getLsbD_extractLsb', BitVec.getLsbD_append, -Nat.reduceAdd]
  split_ifs <;> first | omega | (simp only [hi, decide_true, Bool.true_and]; congr 1; omega)

@[simp] theorem funct3Of_encodeB : funct3Of (encodeB boff rs2 rs1 f3 op) = f3 := by
  refine BitVec.eq_of_getLsbD_eq fun i hi => ?_
  simp only [funct3Of, encodeB, BitVec.getLsbD_extractLsb', BitVec.getLsbD_append, -Nat.reduceAdd]
  split_ifs <;> first | omega | (simp only [hi, decide_true, Bool.true_and]; congr 1; omega)

@[simp] theorem rs1Of_encodeB : rs1Of (encodeB boff rs2 rs1 f3 op) = rs1 := by
  refine BitVec.eq_of_getLsbD_eq fun i hi => ?_
  simp only [rs1Of, encodeB, BitVec.getLsbD_extractLsb', BitVec.getLsbD_append, -Nat.reduceAdd]
  split_ifs <;> first | omega | (simp only [hi, decide_true, Bool.true_and]; congr 1; omega)

@[simp] theorem rs2Of_encodeB : rs2Of (encodeB boff rs2 rs1 f3 op) = rs2 := by
  refine BitVec.eq_of_getLsbD_eq fun i hi => ?_
  simp only [rs2Of, encodeB, BitVec.getLsbD_extractLsb', BitVec.getLsbD_append, -Nat.reduceAdd]
  split_ifs <;> first | omega | (simp only [hi, decide_true, Bool.true_and]; congr 1; omega)

@[simp] theorem opcodeOf_encodeU : opcodeOf (encodeU imm20 rd op) = op := by
  refine BitVec.eq_of_getLsbD_eq fun i hi => ?_
  simp only [opcodeOf, encodeU, BitVec.getLsbD_extractLsb', BitVec.getLsbD_append, -Nat.reduceAdd]
  split_ifs <;> first | omega | (simp only [hi, decide_true, Bool.true_and]; congr 1; omega)

@[simp] theorem rdOf_encodeU : rdOf (encodeU imm20 rd op) = rd := by
  refine BitVec.eq_of_getLsbD_eq fun i hi => ?_
  simp only [rdOf, encodeU, BitVec.getLsbD_extractLsb', BitVec.getLsbD_append, -Nat.reduceAdd]
  split_ifs <;> first | omega | (simp only [hi, decide_true, Bool.true_and]; congr 1; omega)

@[simp] theorem immUOf_encodeU : immUOf (encodeU imm20 rd op) = imm20 := by
  refine BitVec.eq_of_getLsbD_eq fun i hi => ?_
  simp only [immUOf, encodeU, BitVec.getLsbD_extractLsb', BitVec.getLsbD_append, -Nat.reduceAdd]
  split_ifs <;> first | omega | (simp only [hi, decide_true, Bool.true_and]; congr 1; omega)

@[simp] theorem opcodeOf_encodeJ : opcodeOf (encodeJ joff rd op) = op := by
  refine BitVec.eq_of_getLsbD_eq fun i hi => ?_
  simp only [opcodeOf, encodeJ, BitVec.getLsbD_extractLsb', BitVec.getLsbD_append, -Nat.reduceAdd]
  split_ifs <;> first | omega | (simp only [hi, decide_true, Bool.true_and]; congr 1; omega)

@[simp] theorem rdOf_encodeJ : rdOf (encodeJ joff rd op) = rd := by
  refine BitVec.eq_of_getLsbD_eq fun i hi => ?_
  simp only [rdOf, encodeJ, BitVec.getLsbD_extractLsb', BitVec.getLsbD_append, -Nat.reduceAdd]
  split_ifs <;> first | omega | (simp only [hi, decide_true, Bool.true_and]; congr 1; omega)

@[simp] theorem immSOf_encodeS : immSOf (encodeS imm rs2 rs1 f3 op) = imm := by
  refine BitVec.eq_of_getLsbD_eq fun i hi => ?_
  simp only [immSOf, encodeS, BitVec.getLsbD_extractLsb', BitVec.getLsbD_append, -Nat.reduceAdd]
  interval_cases i <;> simp

/-- An even offset comes back whole. -/
theorem immBOf_encodeB (h : boff.getLsbD 0 = false) : immBOf (encodeB boff rs2 rs1 f3 op) = boff := by
  refine BitVec.eq_of_getLsbD_eq fun i hi => ?_
  simp only [immBOf, encodeB, BitVec.getLsbD_extractLsb', BitVec.getLsbD_append, -Nat.reduceAdd]
  have h0 : boff[0] = false := by simpa using h
  interval_cases i <;> simp [h0]

/-- A decoded offset is even (R77). -/
@[simp] theorem evenOffset_immBOf (w : Word) : evenOffset (immBOf w) = true := by
  simp only [evenOffset, immBOf, BitVec.getLsbD_append, -Nat.reduceAdd]
  simp

/-- An even offset comes back whole. -/
theorem immJOf_encodeJ (h : joff.getLsbD 0 = false) : immJOf (encodeJ joff rd op) = joff := by
  refine BitVec.eq_of_getLsbD_eq fun i hi => ?_
  simp only [immJOf, encodeJ, BitVec.getLsbD_extractLsb', BitVec.getLsbD_append, -Nat.reduceAdd]
  have h0 : joff[0] = false := by simpa using h
  interval_cases i <;> simp [h0]

/-- A decoded offset is even (R77). -/
@[simp] theorem evenOffset_immJOf (w : Word) : evenOffset (immJOf w) = true := by
  simp only [evenOffset, immJOf, BitVec.getLsbD_append, -Nat.reduceAdd]
  simp

/-! ## A word from its own fields -/

theorem encodeR_fields (w : Word) : encodeR (funct7Of w) (rs2Of w) (rs1Of w) (funct3Of w) (rdOf w) (opcodeOf w) = w := by
  refine BitVec.eq_of_getLsbD_eq fun i hi => ?_
  simp only [encodeR, funct7Of, rs2Of, rs1Of, funct3Of, rdOf, opcodeOf, BitVec.getLsbD_extractLsb', BitVec.getLsbD_append, -Nat.reduceAdd]
  interval_cases i <;> simp

theorem encodeI_fields (w : Word) : encodeI (immIOf w) (rs1Of w) (funct3Of w) (rdOf w) (opcodeOf w) = w := by
  refine BitVec.eq_of_getLsbD_eq fun i hi => ?_
  simp only [encodeI, immIOf, rs1Of, funct3Of, rdOf, opcodeOf, BitVec.getLsbD_extractLsb', BitVec.getLsbD_append, -Nat.reduceAdd]
  interval_cases i <;> simp

theorem encodeS_fields (w : Word) : encodeS (immSOf w) (rs2Of w) (rs1Of w) (funct3Of w) (opcodeOf w) = w := by
  refine BitVec.eq_of_getLsbD_eq fun i hi => ?_
  simp only [encodeS, immSOf, rs2Of, rs1Of, funct3Of, opcodeOf, BitVec.getLsbD_extractLsb', BitVec.getLsbD_append, -Nat.reduceAdd]
  interval_cases i <;> simp

theorem encodeB_fields (w : Word) : encodeB (immBOf w) (rs2Of w) (rs1Of w) (funct3Of w) (opcodeOf w) = w := by
  refine BitVec.eq_of_getLsbD_eq fun i hi => ?_
  simp only [encodeB, immBOf, rs2Of, rs1Of, funct3Of, opcodeOf, BitVec.getLsbD_extractLsb', BitVec.getLsbD_append, -Nat.reduceAdd]
  interval_cases i <;> simp

theorem encodeU_fields (w : Word) : encodeU (immUOf w) (rdOf w) (opcodeOf w) = w := by
  refine BitVec.eq_of_getLsbD_eq fun i hi => ?_
  simp only [encodeU, immUOf, rdOf, opcodeOf, BitVec.getLsbD_extractLsb', BitVec.getLsbD_append, -Nat.reduceAdd]
  interval_cases i <;> simp

theorem encodeJ_fields (w : Word) : encodeJ (immJOf w) (rdOf w) (opcodeOf w) = w := by
  refine BitVec.eq_of_getLsbD_eq fun i hi => ?_
  simp only [encodeJ, immJOf, rdOf, opcodeOf, BitVec.getLsbD_extractLsb', BitVec.getLsbD_append, -Nat.reduceAdd]
  interval_cases i <;> simp

/-- The three fence fields of w[31:20] (48_misc_mem_system.md R260). -/
theorem fenceFields_append (w : Word) : w.extractLsb' 28 4 ++ w.extractLsb' 24 4 ++ w.extractLsb' 20 4 = immIOf w := by
  refine BitVec.eq_of_getLsbD_eq fun i hi => ?_
  simp only [immIOf, BitVec.getLsbD_extractLsb', BitVec.getLsbD_append, -Nat.reduceAdd]
  interval_cases i <;> simp

/-- The fence fields of an encoded I word are the parts of its immediate. -/
theorem extractLsb'_encodeI (lo len : Nat) (h : lo + len ≤ 12) :
    (encodeI imm rs1 f3 rd op).extractLsb' (20 + lo) len = imm.extractLsb' lo len := by
  refine BitVec.eq_of_getLsbD_eq fun i hi => ?_
  simp only [encodeI, BitVec.getLsbD_extractLsb', BitVec.getLsbD_append, -Nat.reduceAdd]
  split_ifs <;> first | omega | (simp only [hi, decide_true, Bool.true_and]; congr 1; omega)

end Sys2Proof
end

