-- ==== Sys2Proof/Laws/Exec.lean ====
section
/-! SUPPORT. What the shared operations of the meanings, `exec` and `step` can do, said once: later proofs cite these
instead of unfolding them. -/

namespace Sys2Proof.Machine

/-! ## The shared operations -/

theorem advance_eq (s : State) : advance s = .next (s.setPc (s.pc + 4)) := rfl

theorem writeBack_eq (rd : RegIdx) (v : Word) (s : State) :
    writeBack rd v s = .next ((s.writeReg rd v).setPc (s.pc + 4)) := by
  simp [writeBack, advance]

theorem branch_eq (cond : Bool) (off : BitVec 13) (s : State) :
    branch cond off s = .next (s.setPc (if cond then branchTarget s off else s.pc + 4)) := rfl

/-- JALR's base is the new link value exactly where the link is written first over its own base (42_jumps.md R133). -/
theorem jalrTarget_writeReg (s : State) (rd rs1 : RegIdx) (imm : BitVec 12) (v : Word) :
    jalrTarget (s.writeReg rd v) rs1 imm =
      ((if rd = rs1 ∧ ¬(s.cfg.x0Hardwired = true ∧ rd = 0) then v else s.reg rs1) + immI imm) &&& ~~~1#32 := by
  unfold jalrTarget
  by_cases h : rd = rs1
  · subst rs1
    by_cases hw : s.cfg.x0Hardwired = true ∧ rd = 0
    · rw [State.writeReg_discarded v hw, if_neg (by simp [hw.1, hw.2])]
    · rw [State.reg_writeReg_same v hw, if_pos ⟨rfl, hw⟩]
  · rw [State.reg_writeReg_other v (fun e => h e.symm), if_neg (by simp [h])]

theorem load_of_le {n : Width} {s : State} {rs1 : RegIdx} {imm : BitVec 12} (extend : Word → Word) (rd : RegIdx)
    (h : (loadAddr s rs1 imm).toNat + n.bytes ≤ s.cfg.memSize) :
    load n extend rd rs1 imm s = writeBack rd (extend (s.mem.readValue (loadAddr s rs1 imm).toNat n)) s := by
  simp [load, State.memRead_of_le h]

theorem load_of_gt {n : Width} {s : State} {rs1 : RegIdx} {imm : BitVec 12} (extend : Word → Word) (rd : RegIdx)
    (h : s.cfg.memSize < (loadAddr s rs1 imm).toNat + n.bytes) :
    load n extend rd rs1 imm s = raise (.outOfRange .load (loadAddr s rs1 imm) n) s := by
  simp [load, State.memRead_of_gt h]

theorem store_of_le {n : Width} {s : State} {rs1 : RegIdx} {imm : BitVec 12} (rs2 : RegIdx)
    (h : (storeAddr s rs1 imm).toNat + n.bytes ≤ s.cfg.memSize) :
    store n rs1 rs2 imm s =
      .next { s with mem := s.mem.stored (storeAddr s rs1 imm).toNat (s.reg rs2) n.bytes, pc := s.pc + 4 } := by
  simp only [store, State.memWrite_of_le _ h]
  rfl

theorem store_of_gt {n : Width} {s : State} {rs1 : RegIdx} {imm : BitVec 12} (rs2 : RegIdx)
    (h : s.cfg.memSize < (storeAddr s rs1 imm).toNat + n.bytes) :
    store n rs1 rs2 imm s = raise (.outOfRange .store (storeAddr s rs1 imm) n)
      (s.partialWrite (storeAddr s rs1 imm).toNat n (s.reg rs2)) := by
  simp [store, State.memWrite_of_gt _ h]

/-! ## What a meaning can do -/

/-- The five things the meaning of an instruction can do. -/
inductive Effect (s : State) : Result → Prop where
  /-- It writes one register and moves the pc. -/
  | wrote (rd : RegIdx) (v t : Word) : Effect s (.next ((s.writeReg rd v).setPc t))
  /-- It moves the pc. -/
  | moved (t : Word) : Effect s (.next (s.setPc t))
  /-- It stores up to four bytes, all in range, and advances. -/
  | stored (addr v : Word) (n : Width) (h : addr.toNat + n.bytes ≤ s.cfg.memSize) :
      Effect s (.next { s with mem := s.mem.stored addr.toNat v n.bytes, pc := s.pc + 4 })
  /-- A load out of range. -/
  | loadFault (addr : Word) (n : Width) (h : s.cfg.memSize < addr.toNat + n.bytes) :
      Effect s (raise (.outOfRange .load addr n) s)
  /-- A store out of range. -/
  | storeFault (addr v : Word) (n : Width) (h : s.cfg.memSize < addr.toNat + n.bytes) :
      Effect s (raise (.outOfRange .store addr n) (s.partialWrite addr.toNat n v))

theorem Effect.of_writeBack (rd : RegIdx) (v : Word) (s : State) : Effect s (writeBack rd v s) := by
  rw [writeBack_eq]; exact .wrote rd v _

theorem Effect.of_advance (s : State) : Effect s (advance s) := .moved _

theorem Effect.of_branch (cond : Bool) (off : BitVec 13) (s : State) : Effect s (branch cond off s) := .moved _

theorem Effect.of_load (n : Width) (extend : Word → Word) (rd rs1 : RegIdx) (imm : BitVec 12) (s : State) :
    Effect s (load n extend rd rs1 imm s) := by
  rcases Nat.lt_or_ge s.cfg.memSize ((loadAddr s rs1 imm).toNat + n.bytes) with h | h
  · rw [load_of_gt extend rd h]; exact .loadFault _ n h
  · rw [load_of_le extend rd h]; exact .of_writeBack rd _ s

theorem Effect.of_store (n : Width) (rs1 rs2 : RegIdx) (imm : BitVec 12) (s : State) :
    Effect s (store n rs1 rs2 imm s) := by
  rcases Nat.lt_or_ge s.cfg.memSize ((storeAddr s rs1 imm).toNat + n.bytes) with h | h
  · rw [store_of_gt rs2 h]; exact .storeFault _ _ n h
  · rw [store_of_le rs2 h]; exact .stored _ _ n h

/-- Every instruction's meaning does one of the five. -/
theorem exec_effect (i : Instr) (s : State) : Effect s (exec i s) := by
  cases i
  case jal rd off => exact .wrote rd _ _
  case jalr rd rs1 imm => exact .wrote rd _ _
  case beq => exact .of_branch _ _ s
  case bne => exact .of_branch _ _ s
  case blt => exact .of_branch _ _ s
  case bge => exact .of_branch _ _ s
  case bltu => exact .of_branch _ _ s
  case bgeu => exact .of_branch _ _ s
  case lb rd rs1 imm => exact .of_load _ _ rd rs1 imm s
  case lh rd rs1 imm => exact .of_load _ _ rd rs1 imm s
  case lw rd rs1 imm => exact .of_load _ _ rd rs1 imm s
  case lbu rd rs1 imm => exact .of_load _ _ rd rs1 imm s
  case lhu rd rs1 imm => exact .of_load _ _ rd rs1 imm s
  case sb rs1 rs2 imm => exact .of_store _ rs1 rs2 imm s
  case sh rs1 rs2 imm => exact .of_store _ rs1 rs2 imm s
  case sw rs1 rs2 imm => exact .of_store _ rs1 rs2 imm s
  case fence => exact .of_advance s
  case ecall => exact .of_advance s
  case ebreak => exact .of_advance s
  case system => exact .of_advance s
  all_goals exact .of_writeBack _ _ s

/-! ## What a step can do -/

theorem step_of_faulted {s : State} {f : FaultRecord} (h : s.status = .faulted f) : step s = .fault (.stuck f) := by
  simp [step, h]

theorem step_of_fetch_none {s : State} (h : s.status = .running) (hf : fetch s = none) :
    step s = raise (fetchFault s) s := by
  simp [step, h, hf]

theorem step_of_unrecognized {s : State} {w : Word} {r : Reject} (h : s.status = .running) (hf : fetch s = some w)
    (hd : decode w = .error r) : step s = execUnrecognized w s := by
  simp [step, h, hf, hd]

/-- A step of a running block whose word decodes runs that instruction. -/
theorem step_of_decode {s : State} {w : Word} {i : Instr} (h : s.status = .running) (hf : fetch s = some w)
    (hd : decode w = .ok i) : step s = exec i s := by
  simp [step, h, hf, hd]

/-- The four ways a step goes: stuck, a fetch fault, an unrecognized word, an instruction. -/
theorem step_cases (s : State) :
    (∃ f, s.status = .faulted f ∧ step s = .fault (.stuck f)) ∨
    (s.status = .running ∧ s.cfg.memSize < s.pc.toNat + 4 ∧ step s = raise (fetchFault s) s) ∨
    (s.status = .running ∧ ∃ w r, fetch s = some w ∧ decode w = .error r ∧ step s = execUnrecognized w s) ∨
    (s.status = .running ∧ ∃ w i, fetch s = some w ∧ decode w = .ok i ∧ step s = exec i s) := by
  cases hs : s.status with
  | faulted f => exact .inl ⟨f, rfl, step_of_faulted hs⟩
  | running =>
    cases hf : fetch s with
    | none =>
      have hlt : s.cfg.memSize < s.pc.toNat + 4 := by
        by_contra hc
        rw [fetch, State.memRead_of_le (n := .word) (Nat.not_lt.mp hc)] at hf
        cases hf
      exact .inr (.inl ⟨rfl, hlt, step_of_fetch_none hs hf⟩)
    | some w =>
      cases hd : decode w with
      | error r => exact .inr (.inr (.inl ⟨rfl, w, r, rfl, hd, step_of_unrecognized hs hf hd⟩))
      | ok i => exact .inr (.inr (.inr ⟨rfl, w, i, rfl, hd, step_of_decode hs hf hd⟩))

end Sys2Proof.Machine
end

