-- ==== Sys2Proof/Laws/HostPort.lean ====
section
/-! SUPPORT. What the host's stop conditions and a run can do (70_reset_and_hazards.md R306), said once. -/

namespace Sys2Proof.Machine

/-- The three answers of the host's stop conditions. -/
theorem hostStop_cases (stopPc : Option Word) (n : Option Nat) (s : State) :
    (stopPc = some s.pc ∧ hostStop stopPc n s = some (.stopPc s)) ∨
    (stopPc ≠ some s.pc ∧ n = some 0 ∧ hostStop stopPc n s = some (.maxSteps s)) ∨
    (stopPc ≠ some s.pc ∧ n ≠ some 0 ∧ hostStop stopPc n s = none) := by
  unfold hostStop
  split_ifs with h1 h2
  · exact .inl ⟨h1, rfl⟩
  · exact .inr (.inl ⟨h1, h2, rfl⟩)
  · exact .inr (.inr ⟨h1, h2, rfl⟩)

/-- A run that the host stops where it stands ends there, whatever the fuel. -/
theorem runHost_of_hostStop {stopPc : Option Word} {n : Option Nat} {s : State} {e : RunEnd}
    (h : hostStop stopPc n s = some e) (fuel : Nat) : runHost stopPc n fuel s = some e := by
  cases fuel <;> simp [runHost, h]

/-- A run that the host lets go on takes a completed step. -/
theorem runHost_of_next {stopPc : Option Word} {n : Option Nat} {s t : State} (h : hostStop stopPc n s = none)
    (hs : step s = .next t) (fuel : Nat) :
    runHost stopPc n (fuel + 1) s = runHost stopPc (n.map (· - 1)) fuel t := by
  simp [runHost, h, hs]

/-- A run that the host lets go on ends with the fault of its next step. -/
theorem runHost_of_raised {stopPc : Option Word} {n : Option Nat} {s t : State} {f : FaultRecord}
    (h : hostStop stopPc n s = none) (hs : step s = .fault (.raised f t)) (fuel : Nat) :
    runHost stopPc n (fuel + 1) s = some (.fault f t) := by
  simp [runHost, h, hs]

end Sys2Proof.Machine
end

