-- ==== Sys2Proof/Laws/PerInstr.lean ====
section
/-! SUPPORT. One family of facts about every instruction as syntax: its word carries its class's opcode (30_encoding.md
R80). -/

namespace Sys2Proof.Laws

/-- The opcode of an instruction's class (30_encoding.md R80). -/
def classOpcode : Instr → BitVec 7
  | .lui _ _ => 0x37
  | .auipc _ _ => 0x17
  | .jal _ _ => 0x6F
  | .jalr _ _ _ => 0x67
  | .beq _ _ _ | .bne _ _ _ | .blt _ _ _ | .bge _ _ _ | .bltu _ _ _ | .bgeu _ _ _ => 0x63
  | .lb _ _ _ | .lh _ _ _ | .lw _ _ _ | .lbu _ _ _ | .lhu _ _ _ => 0x03
  | .sb _ _ _ | .sh _ _ _ | .sw _ _ _ => 0x23
  | .addi _ _ _ | .slti _ _ _ | .sltiu _ _ _ | .xori _ _ _ | .ori _ _ _ | .andi _ _ _ => 0x13
  | .slli _ _ _ | .srli _ _ _ | .srai _ _ _ => 0x13
  | .add _ _ _ | .sub _ _ _ | .sll _ _ _ | .slt _ _ _ | .sltu _ _ _ => 0x33
  | .xor _ _ _ | .srl _ _ _ | .sra _ _ _ | .or _ _ _ | .and _ _ _ => 0x33
  | .fence _ _ _ _ _ _ => 0x0F
  | .ecall | .ebreak | .system _ _ _ _ => 0x73

namespace ClassOpcode

/-- The word of `i` carries the opcode of its class. -/
def Statement (i : Instr) : Prop := opcodeOf (encode i) = classOpcode i

theorem lui (rd : RegIdx) (imm20 : BitVec 20) : Statement (.lui rd imm20) := by simp [Statement, encode, classOpcode]
theorem auipc (rd : RegIdx) (imm20 : BitVec 20) : Statement (.auipc rd imm20) := by simp [Statement, encode, classOpcode]
theorem jal (rd : RegIdx) (off : BitVec 21) : Statement (.jal rd off) := by simp [Statement, encode, classOpcode]
theorem jalr (rd rs1 : RegIdx) (imm : BitVec 12) : Statement (.jalr rd rs1 imm) := by simp [Statement, encode, classOpcode]
theorem beq (rs1 rs2 : RegIdx) (off : BitVec 13) : Statement (.beq rs1 rs2 off) := by simp [Statement, encode, classOpcode]
theorem bne (rs1 rs2 : RegIdx) (off : BitVec 13) : Statement (.bne rs1 rs2 off) := by simp [Statement, encode, classOpcode]
theorem blt (rs1 rs2 : RegIdx) (off : BitVec 13) : Statement (.blt rs1 rs2 off) := by simp [Statement, encode, classOpcode]
theorem bge (rs1 rs2 : RegIdx) (off : BitVec 13) : Statement (.bge rs1 rs2 off) := by simp [Statement, encode, classOpcode]
theorem bltu (rs1 rs2 : RegIdx) (off : BitVec 13) : Statement (.bltu rs1 rs2 off) := by simp [Statement, encode, classOpcode]
theorem bgeu (rs1 rs2 : RegIdx) (off : BitVec 13) : Statement (.bgeu rs1 rs2 off) := by simp [Statement, encode, classOpcode]
theorem lb (rd rs1 : RegIdx) (imm : BitVec 12) : Statement (.lb rd rs1 imm) := by simp [Statement, encode, classOpcode]
theorem lh (rd rs1 : RegIdx) (imm : BitVec 12) : Statement (.lh rd rs1 imm) := by simp [Statement, encode, classOpcode]
theorem lw (rd rs1 : RegIdx) (imm : BitVec 12) : Statement (.lw rd rs1 imm) := by simp [Statement, encode, classOpcode]
theorem lbu (rd rs1 : RegIdx) (imm : BitVec 12) : Statement (.lbu rd rs1 imm) := by simp [Statement, encode, classOpcode]
theorem lhu (rd rs1 : RegIdx) (imm : BitVec 12) : Statement (.lhu rd rs1 imm) := by simp [Statement, encode, classOpcode]
theorem sb (rs1 rs2 : RegIdx) (imm : BitVec 12) : Statement (.sb rs1 rs2 imm) := by simp [Statement, encode, classOpcode]
theorem sh (rs1 rs2 : RegIdx) (imm : BitVec 12) : Statement (.sh rs1 rs2 imm) := by simp [Statement, encode, classOpcode]
theorem sw (rs1 rs2 : RegIdx) (imm : BitVec 12) : Statement (.sw rs1 rs2 imm) := by simp [Statement, encode, classOpcode]
theorem addi (rd rs1 : RegIdx) (imm : BitVec 12) : Statement (.addi rd rs1 imm) := by simp [Statement, encode, classOpcode]
theorem slti (rd rs1 : RegIdx) (imm : BitVec 12) : Statement (.slti rd rs1 imm) := by simp [Statement, encode, classOpcode]
theorem sltiu (rd rs1 : RegIdx) (imm : BitVec 12) : Statement (.sltiu rd rs1 imm) := by simp [Statement, encode, classOpcode]
theorem xori (rd rs1 : RegIdx) (imm : BitVec 12) : Statement (.xori rd rs1 imm) := by simp [Statement, encode, classOpcode]
theorem ori (rd rs1 : RegIdx) (imm : BitVec 12) : Statement (.ori rd rs1 imm) := by simp [Statement, encode, classOpcode]
theorem andi (rd rs1 : RegIdx) (imm : BitVec 12) : Statement (.andi rd rs1 imm) := by simp [Statement, encode, classOpcode]
theorem slli (rd rs1 : RegIdx) (shamt : BitVec 5) : Statement (.slli rd rs1 shamt) := by simp [Statement, encode, classOpcode]
theorem srli (rd rs1 : RegIdx) (shamt : BitVec 5) : Statement (.srli rd rs1 shamt) := by simp [Statement, encode, classOpcode]
theorem srai (rd rs1 : RegIdx) (shamt : BitVec 5) : Statement (.srai rd rs1 shamt) := by simp [Statement, encode, classOpcode]
theorem add (rd rs1 rs2 : RegIdx) : Statement (.add rd rs1 rs2) := by simp [Statement, encode, classOpcode]
theorem sub (rd rs1 rs2 : RegIdx) : Statement (.sub rd rs1 rs2) := by simp [Statement, encode, classOpcode]
theorem sll (rd rs1 rs2 : RegIdx) : Statement (.sll rd rs1 rs2) := by simp [Statement, encode, classOpcode]
theorem slt (rd rs1 rs2 : RegIdx) : Statement (.slt rd rs1 rs2) := by simp [Statement, encode, classOpcode]
theorem sltu (rd rs1 rs2 : RegIdx) : Statement (.sltu rd rs1 rs2) := by simp [Statement, encode, classOpcode]
theorem xor (rd rs1 rs2 : RegIdx) : Statement (.xor rd rs1 rs2) := by simp [Statement, encode, classOpcode]
theorem srl (rd rs1 rs2 : RegIdx) : Statement (.srl rd rs1 rs2) := by simp [Statement, encode, classOpcode]
theorem sra (rd rs1 rs2 : RegIdx) : Statement (.sra rd rs1 rs2) := by simp [Statement, encode, classOpcode]
theorem or (rd rs1 rs2 : RegIdx) : Statement (.or rd rs1 rs2) := by simp [Statement, encode, classOpcode]
theorem and (rd rs1 rs2 : RegIdx) : Statement (.and rd rs1 rs2) := by simp [Statement, encode, classOpcode]
theorem fence (fm pred succ : BitVec 4) (rs1 : RegIdx) (funct3 : BitVec 3) (rd : RegIdx) : Statement (.fence fm pred succ rs1 funct3 rd) := by simp [Statement, encode, classOpcode]
theorem ecall : Statement .ecall := by unfold Statement; decide
theorem ebreak : Statement .ebreak := by unfold Statement; decide
theorem system (funct12 : BitVec 12) (rs1 : RegIdx) (funct3 : BitVec 3) (rd : RegIdx) : Statement (.system funct12 rs1 funct3 rd) := by simp [Statement, encode, classOpcode]

end ClassOpcode

end Sys2Proof.Laws
end

