-- ==== Sys2Proof/Tests/Slice0.lean ====
section
/-! SUPPORT. The model's own tests: well-formedness, decoding of words written out from 30_encoding.md R71 and R81, one
step on small states, and a witness for the hypotheses of each statement. Expected results are those of
95_test_vectors.md (whose numbers the docstrings give) or follow by hand from the rule cited. -/

open Sys2Proof Sys2Proof.Machine Sys2Proof.Claims

namespace Sys2Proof.Tests

/-! ## Well-formedness (30_encoding.md R77, R81): an ill-formed term is refused by each check -/

theorem test_odd_branch_offset_is_ill_formed :
    (Instr.beq 1 2 3).wellFormed = false ∧ (Instr.bne 1 2 1).wellFormed = false ∧
    (Instr.blt 1 2 (-1)).wellFormed = false ∧ (Instr.bge 1 2 5).wellFormed = false ∧
    (Instr.bltu 1 2 7).wellFormed = false ∧ (Instr.bgeu 1 2 9).wellFormed = false ∧
    (Instr.beq 1 2 4).wellFormed = true := by decide

theorem test_odd_jump_offset_is_ill_formed :
    (Instr.jal 1 3).wellFormed = false ∧ (Instr.jal 1 2).wellFormed = true := by decide

theorem test_system_with_the_fields_of_ecall_or_ebreak_is_ill_formed :
    (Instr.system 0 0 0 0).wellFormed = false ∧ (Instr.system 1 0 0 0).wellFormed = false ∧
    (Instr.system 2 0 0 0).wellFormed = true ∧ (Instr.system 0 0 0 1).wellFormed = true ∧
    (Instr.system 0 1 0 0).wellFormed = true ∧ (Instr.system 1 0 4 0).wellFormed = true := by decide

/-! ## Decoding: every constructor, its word's fields apart by `_`, bit 31 first -/

/-- U: imm[31:12], rd, opcode. -/
theorem test_decode_upper_immediate :
    decode 0b00010010001101000101_00101_0110111#32 = .ok (.lui 5 0x12345) ∧
    decode 0b11111111111111111111_00001_0010111#32 = .ok (.auipc 1 0xFFFFF) := by decide

/-- J: imm[20], imm[10:1], imm[11], imm[19:12], rd, opcode; I: imm, rs1, funct3, rd, opcode. -/
theorem test_decode_jumps :
    decode 0b1_1111111100_1_11111111_00001_1101111#32 = .ok (.jal 1 (-8)) ∧
    decode 0b111111111111_00000_000_00010_1100111#32 = .ok (.jalr 2 0 (-1)) := by decide

/-- B: imm[12], imm[10:5], rs2, rs1, funct3, imm[4:1], imm[11], opcode. -/
theorem test_decode_branches :
    decode 0b0_000000_00010_00001_000_0100_0_1100011#32 = .ok (.beq 1 2 8) ∧
    decode 0b1_111111_00000_00010_001_1100_1_1100011#32 = .ok (.bne 2 0 (-8)) ∧
    decode 0b0_000000_00010_00001_100_1000_0_1100011#32 = .ok (.blt 1 2 16) ∧
    decode 0b0_000000_00010_00001_101_1000_0_1100011#32 = .ok (.bge 1 2 16) ∧
    decode 0b0_000000_00010_00001_110_1000_0_1100011#32 = .ok (.bltu 1 2 16) ∧
    decode 0b0_000000_00010_00001_111_1000_0_1100011#32 = .ok (.bgeu 1 2 16) := by decide

/-- I. -/
theorem test_decode_loads :
    decode 0b111111111111_00001_000_00010_0000011#32 = .ok (.lb 2 1 (-1)) ∧
    decode 0b000100000001_00000_001_00100_0000011#32 = .ok (.lh 4 0 0x101) ∧
    decode 0b000111111100_00000_010_00011_0000011#32 = .ok (.lw 3 0 0x1FC) ∧
    decode 0b000100000000_00000_100_00010_0000011#32 = .ok (.lbu 2 0 0x100) ∧
    decode 0b000100000010_00000_101_00101_0000011#32 = .ok (.lhu 5 0 0x102) := by decide

/-- S: imm[11:5], rs2, rs1, funct3, imm[4:0], opcode. -/
theorem test_decode_stores :
    decode 0b0001000_00001_00000_000_00101_0100011#32 = .ok (.sb 0 1 0x105) ∧
    decode 0b0010000_00001_00000_001_00001_0100011#32 = .ok (.sh 0 1 0x201) ∧
    decode 0b1111111_00001_00010_010_11100_0100011#32 = .ok (.sw 2 1 (-4)) := by decide

/-- I. -/
theorem test_decode_alu_immediate :
    decode 0b100000000000_00000_000_00010_0010011#32 = .ok (.addi 2 0 (-2048)) ∧
    decode 0b111111111111_00001_010_00011_0010011#32 = .ok (.slti 3 1 (-1)) ∧
    decode 0b000000000001_00001_011_00011_0010011#32 = .ok (.sltiu 3 1 1) ∧
    decode 0b111111111111_00001_100_00011_0010011#32 = .ok (.xori 3 1 (-1)) ∧
    decode 0b000011110000_00001_110_00011_0010011#32 = .ok (.ori 3 1 0x0F0) ∧
    decode 0b111111110000_00001_111_00011_0010011#32 = .ok (.andi 3 1 (-16)) := by decide

/-- funct7, shamt, rs1, funct3, rd, opcode. -/
theorem test_decode_shift_immediate :
    decode 0b0000000_11111_00001_001_00001_0010011#32 = .ok (.slli 1 1 31) ∧
    decode 0b0000000_00100_00001_101_00011_0010011#32 = .ok (.srli 3 1 4) ∧
    decode 0b0100000_11111_00001_101_00011_0010011#32 = .ok (.srai 3 1 31) := by decide

/-- R: funct7, rs2, rs1, funct3, rd, opcode. -/
theorem test_decode_alu_register :
    decode 0b0000000_00010_00001_000_00011_0110011#32 = .ok (.add 3 1 2) ∧
    decode 0b0100000_00010_00001_000_00011_0110011#32 = .ok (.sub 3 1 2) ∧
    decode 0b0000000_00010_00001_001_00011_0110011#32 = .ok (.sll 3 1 2) ∧
    decode 0b0000000_00010_00001_010_00011_0110011#32 = .ok (.slt 3 1 2) ∧
    decode 0b0000000_00010_00001_011_00011_0110011#32 = .ok (.sltu 3 1 2) ∧
    decode 0b0000000_00010_00001_100_00011_0110011#32 = .ok (.xor 3 1 2) ∧
    decode 0b0000000_00010_00001_101_00011_0110011#32 = .ok (.srl 3 1 2) ∧
    decode 0b0100000_00010_00001_101_00011_0110011#32 = .ok (.sra 3 1 2) ∧
    decode 0b0000000_00010_00001_110_00011_0110011#32 = .ok (.or 3 1 2) ∧
    decode 0b0000000_00010_00001_111_00011_0110011#32 = .ok (.and 3 1 2) := by decide

/-- fm, pred, succ, rs1, funct3, rd, opcode. -/
theorem test_decode_fence :
    decode 0b0000_1111_1111_00000_000_00000_0001111#32 = .ok (.fence 0 15 15 0 0 0) ∧
    decode 0b0000_0000_0000_00000_000_00101_0001111#32 = .ok (.fence 0 0 0 0 0 5) := by decide

/-- I. -/
theorem test_decode_system :
    decode 0b000000000000_00000_000_00000_1110011#32 = .ok (.ecall) ∧
    decode 0b000000000001_00000_000_00000_1110011#32 = .ok (.ebreak) ∧
    decode 0b101100000000_00000_010_00101_1110011#32 = .ok (.system 0xB00 0 2 5) ∧
    decode 0b001100000010_00000_000_00000_1110011#32 = .ok (.system 0x302 0 0 0) := by decide

/-- One word for each item of R83's list, and a word of three bytes. -/
theorem test_decode_rejects_by_name :
    decode 0xFFFFFFFF#32 = .error .opcode ∧ decode 0x000090E7#32 = .error .jalrFunct3 ∧
    decode 0x0020A463#32 = .error .branchFunct3 ∧ decode 0x10003183#32 = .error .loadFunct3 ∧
    decode 0x10103023#32 = .error .storeFunct3 ∧ decode 0x40109193#32 = .error .shiftFunct7 ∧
    decode 0x022081B3#32 = .error .opFunct7 ∧ decodeBytes [0x13, 0x00, 0x00] = .error .truncated := by decide

/-- Bytes are read lowest address first, and the rest of the list is given back (R70). -/
theorem test_decode_bytes :
    decodeBytes [0xB7, 0x52, 0x34, 0x12, 0xAA] = .ok (.lui 5 0x12345, [0xAA]) ∧
    encodeBytes (.lui 5 0x12345) = [0xB7, 0x52, 0x34, 0x12] := by decide

/-- W1: decoded immediates at their extremes. -/
theorem test_immediates :
    immI (immIOf 0x80000013#32) = 0xFFFFF800#32 ∧ immI (immIOf 0x7FF00013#32) = 0x000007FF#32 ∧
    immS (immSOf 0x80000023#32) = 0xFFFFF800#32 ∧ immS (immSOf 0x7E000FA3#32) = 0x000007FF#32 ∧
    immB (immBOf 0x80000063#32) = 0xFFFFF000#32 ∧ immB (immBOf 0x000000E3#32) = 0x00000800#32 ∧
    immU (immUOf 0x80000037#32) = 0x80000000#32 ∧ immJ (immJOf 0x800000EF#32) = 0xFFF00000#32 ∧
    immJ (immJOf 0x0010006F#32) = 0x00000800#32 ∧ immJ (immJOf 0x0000106F#32) = 0x00001000#32 := by decide

/-! ## One step, from the vectors of 95_test_vectors.md L2 -/

/-- The start state of L2: registers and memory zero but for those listed, and the instruction's word at the pc. -/
def start (cfg : Config) (pc w : Word) (regs : List (RegIdx × Word)) (bytes : List Host.Cell) : State where
  cfg := cfg
  regs := regs.foldl (fun v p => v.set p.1.toNat p.2 p.1.isLt) (Vector.replicate 32 0)
  pc := pc
  mem :=
    let m : Memory := bytes.foldl (fun (m : Memory) c => Memory.set m c.1 c.2) []
    if pc.toNat + 4 ≤ cfg.memSize then placeBytes m pc.toNat (bytesOfWord w) else m
  status := .running
  draws := 0

/-- The step completes at `pc`, and changes the registers and the bytes listed and nothing else. -/
def goesTo (s : State) (pc : Word) (regs : List (RegIdx × Word)) (bytes : List Host.Cell) : Bool :=
  match step s with
  | .next t =>
    t == { s with
      pc := pc
      regs := regs.foldl (fun v p => v.set p.1.toNat p.2 p.1.isLt) s.regs
      mem := bytes.foldl (fun (m : Memory) c => Memory.set m c.1 c.2) s.mem }
  | _ => false

/-- The step raises `f`, and changes nothing but the status (and the model's own draw counter, at a store). -/
def faults (s : State) (f : FaultRecord) : Bool :=
  match step s with
  | .fault (.raised g t) => g == f && t == { s with status := .faulted f, draws := t.draws }
  | _ => false

/-- The parameters of L2: 0x200 bytes, and the defaults. -/
def plain : Config := Config.default 0x200

/-- The bytes of L2.6. -/
def loadBytes : List Host.Cell :=
  [(0x100, 0xEF), (0x101, 0xBE), (0x102, 0xAD), (0x103, 0xDE), (0x104, 0x80), (0x105, 0x7F), (0x107, 0x80)]

/-! ### 41_upper_immediate.md -/

/-- TU1: `lui x5, 0x12345`. -/
theorem test_lui :
    goesTo (start plain 0x40 0x123452B7 [] []) 0x44 [(5, 0x12345000)] [] = true := by decide

/-- TU3: `lui x0, 0`. -/
theorem test_lui_x0 :
    goesTo (start plain 0x40 0x00000037 [(0, 0x7)] []) 0x44 [(0, 0x0)] [] = true := by decide

/-- TU5: `auipc x1, 0xFFFFF`. -/
theorem test_auipc_wraps :
    goesTo (start (Config.default 0x2000) 0x1000 0xFFFFF097 [] []) 0x1004 [] [] = true := by decide

/-- TU6: `auipc x3, 0`. -/
theorem test_auipc_own_address :
    goesTo (start plain 0x40 0x00000197 [] []) 0x44 [(3, 0x40)] [] = true := by decide

/-! ### 42_jumps.md -/

/-- TJ2: `jal x1, -8`. -/
theorem test_jal_backward :
    goesTo (start plain 0x10 0xFF9FF0EF [] []) 0x8 [(1, 0x14)] [] = true := by decide

/-- TJ6: `jal x1, -4`. -/
theorem test_jal_wraps :
    goesTo (start plain 0x0 0xFFDFF0EF [] []) 0xFFFFFFFC [(1, 0x4)] [] = true := by decide

/-- TJ8: `jalr x1, 16(x1)`. -/
theorem test_jalr_link_first :
    goesTo (start plain 0x20 0x010080E7 [(1, 0x100)] []) 0x34 [(1, 0x24)] [] = true := by decide

/-- TJ9: `jalr x1, 16(x1)`. -/
theorem test_jalr_base_first :
    goesTo (start { plain with jalrLinkFirst := false } 0x20 0x010080E7 [(1, 0x100)] [])
      0x110 [(1, 0x24)] [] = true := by decide

/-! ### 43_branches.md -/

/-- TB1: `beq x1, x2, 8`. -/
theorem test_beq_taken :
    goesTo (start plain 0x100 0x00208463 [(1, 0x5), (2, 0x5)] []) 0x108 [] [] = true := by decide

/-- TB2: `beq x1, x2, 8`. -/
theorem test_beq_not_taken :
    goesTo (start plain 0x100 0x00208463 [(1, 0x5), (2, 0x6)] []) 0x104 [] [] = true := by decide

/-- TB13: `bne x2, x0, -8`. -/
theorem test_bne_backward :
    goesTo (start plain 0x14 0xFE011CE3 [(2, 0x9)] []) 0xC [] [] = true := by decide

/-- TB9: `blt x1, x2, 16`. -/
theorem test_blt_signed :
    goesTo (start plain 0x40 0x0020C863 [(1, 0x80000000), (2, 0x7FFFFFFF)] []) 0x50 [] [] = true := by decide

/-- TB10: `bge x1, x2, 16`. -/
theorem test_bge_signed :
    goesTo (start plain 0x40 0x0020D863 [(1, 0x80000000), (2, 0x7FFFFFFF)] []) 0x44 [] [] = true := by decide

/-- TB11: `bltu x1, x2, 16`. -/
theorem test_bltu_unsigned :
    goesTo (start plain 0x40 0x0020E863 [(1, 0x80000000), (2, 0x7FFFFFFF)] []) 0x44 [] [] = true := by decide

/-- TB12: `bgeu x1, x2, 16`. -/
theorem test_bgeu_unsigned :
    goesTo (start plain 0x40 0x0020F863 [(1, 0x80000000), (2, 0x7FFFFFFF)] []) 0x50 [] [] = true := by decide

/-! ### 44_loads.md -/

/-- TL1: `lb x2, 0x100(x0)`. -/
theorem test_lb_zero_extends :
    goesTo (start plain 0x40 0x10000103 [] loadBytes) 0x44 [(2, 0xEF)] [] = true := by decide

/-- TL2: `lb x2, 0x100(x0)`. -/
theorem test_lb_sign_extends :
    goesTo (start { plain with loadSignExtend := true } 0x40 0x10000103 [] loadBytes)
      0x44 [(2, 0xFFFFFFEF)] [] = true := by decide

/-- TL6: `lh x4, 0x101(x0)`. -/
theorem test_lh_misaligned_sign_extends :
    goesTo (start { plain with loadSignExtend := true } 0x40 0x10101203 [] loadBytes)
      0x44 [(4, 0xFFFFADBE)] [] = true := by decide

/-- TL17: `lh x3, 0x1FF(x0)`. -/
theorem test_lh_straddles :
    faults (start plain 0x40 0x1FF01183 [(3, 0x55)] loadBytes) (.outOfRange .load 0x1FF .half) = true := by decide

/-- TL11: `lw x3, 0x101(x0)`. -/
theorem test_lw_misaligned :
    goesTo (start plain 0x40 0x10102183 [] loadBytes) 0x44 [(3, 0x80DEADBE)] [] = true := by decide

/-- TL15: `lw x3, 0x1FD(x0)`. -/
theorem test_lw_straddles :
    faults (start plain 0x40 0x1FD02183 [(3, 0x55)] loadBytes) (.outOfRange .load 0x1FD .word) = true := by decide

/-- TL3: `lbu x2, 0x100(x0)`. -/
theorem test_lbu :
    goesTo (start { plain with loadSignExtend := true } 0x40 0x10004103 [] loadBytes)
      0x44 [(2, 0xEF)] [] = true := by decide

/-- TL9: `lhu x5, 0x102(x0)`. -/
theorem test_lhu :
    goesTo (start { plain with loadSignExtend := true } 0x40 0x10205283 [] loadBytes)
      0x44 [(5, 0xDEAD)] [] = true := by decide

/-! ### 45_stores.md -/

/-- TS2: `sb x1, 0x105(x0)`. -/
theorem test_sb :
    goesTo (start plain 0x40 0x101002A3 [(1, 0xDEADBEEF)] []) 0x44 [] [(0x105, 0xEF)] = true := by decide

/-- TS6: `sb x1, 0x200(x0)`. -/
theorem test_sb_out_of_range :
    faults (start plain 0x40 0x20100023 [(1, 0xFF)] []) (.outOfRange .store 0x200 .byte) = true := by decide

/-- TS3: `sh x1, 0x201(x0)`. -/
theorem test_sh_odd_address :
    goesTo (start (Config.default 0x300) 0x40 0x201010A3 [(1, 0x12345678)] [])
      0x44 [] [(0x201, 0x78), (0x202, 0x56)] = true := by decide

/-- TS5: `sw x1, -4(x2)`. -/
theorem test_sw_negative_offset :
    goesTo (start plain 0x40 0xFE112E23 [(1, 0xA5A5A5A5), (2, 0x110)] [])
      0x44 [] [(0x10C, 0xA5), (0x10D, 0xA5), (0x10E, 0xA5), (0x10F, 0xA5)] = true := by decide

/-! ### 46_alu_immediate.md -/

/-- TI1: `addi x1, x1, 1`. -/
theorem test_addi_wraps :
    goesTo (start plain 0x40 0x00108093 [(1, 0x7FFFFFFF)] []) 0x44 [(1, 0x80000000)] [] = true := by decide

/-- TX7: `addi x1, x0, 5`. -/
theorem test_addi_reads_x0 :
    goesTo (start plain 0x40 0x00500093 [(0, 0x7)] []) 0x44 [(1, 0xC)] [] = true := by decide

/-- TI6: `slti x3, x1, -1`. -/
theorem test_slti_signed :
    goesTo (start plain 0x40 0xFFF0A193 [(1, 0x80000000)] []) 0x44 [(3, 0x1)] [] = true := by decide

/-- TI8: `sltiu x3, x1, -1`. -/
theorem test_sltiu_extended_immediate :
    goesTo (start plain 0x40 0xFFF0B193 [(1, 0x5)] []) 0x44 [(3, 0x1)] [] = true := by decide

/-- TI11: `xori x3, x1, -1`. -/
theorem test_xori :
    goesTo (start plain 0x40 0xFFF0C193 [(1, 0xFFFF)] []) 0x44 [(3, 0xFFFF0000)] [] = true := by decide

/-- TI13: `ori x3, x1, -2048`. -/
theorem test_ori_negative :
    goesTo (start plain 0x40 0x8000E193 [(1, 0x0)] []) 0x44 [(3, 0xFFFFF800)] [] = true := by decide

/-- TI14: `andi x3, x1, -16`. -/
theorem test_andi_negative :
    goesTo (start plain 0x40 0xFF00F193 [(1, 0x12345678)] []) 0x44 [(3, 0x12345670)] [] = true := by decide

/-- TI16: `slli x1, x1, 31`. -/
theorem test_slli_by_31 :
    goesTo (start plain 0x40 0x01F09093 [(1, 0x3)] []) 0x44 [(1, 0x80000000)] [] = true := by decide

/-- TI19: `srli x3, x1, 4`. -/
theorem test_srli :
    goesTo (start plain 0x40 0x0040D193 [(1, 0x80000000)] []) 0x44 [(3, 0x8000000)] [] = true := by decide

/-- TI20: `srai x3, x1, 4`. -/
theorem test_srai :
    goesTo (start plain 0x40 0x4040D193 [(1, 0x80000000)] []) 0x44 [(3, 0xF8000000)] [] = true := by decide

/-! ### 47_alu_register.md -/

/-- TR4: `add x1, x1, x1`. -/
theorem test_add_same_registers :
    goesTo (start plain 0x40 0x001080B3 [(1, 0x40000000)] []) 0x44 [(1, 0x80000000)] [] = true := by decide

/-- TR6: `sub x3, x1, x2`. -/
theorem test_sub_overflow :
    goesTo (start plain 0x40 0x402081B3 [(1, 0x80000000), (2, 0x1)] []) 0x44 [(3, 0x7FFFFFFF)] [] = true := by decide

/-- TR8: `sll x3, x1, x2`. -/
theorem test_sll_by_33 :
    goesTo (start plain 0x40 0x002091B3 [(1, 0x1), (2, 0x21)] []) 0x44 [(3, 0x2)] [] = true := by decide

/-- TR11: `slt x3, x1, x2`. -/
theorem test_slt_signed :
    goesTo (start plain 0x40 0x0020A1B3 [(1, 0x80000000), (2, 0x7FFFFFFF)] []) 0x44 [(3, 0x1)] [] = true := by decide

/-- TR12: `sltu x3, x1, x2`. -/
theorem test_sltu_unsigned :
    goesTo (start plain 0x40 0x0020B1B3 [(1, 0xFFFFFFFF), (2, 0x1)] []) 0x44 [] [] = true := by decide

/-- TR14: `xor x3, x1, x2`. -/
theorem test_xor :
    goesTo (start plain 0x40 0x0020C1B3 [(1, 0xFF00FF00), (2, 0xFF00FF0)] [])
      0x44 [(3, 0xF0F0F0F0)] [] = true := by decide

/-- TR16: `srl x3, x1, x2`. -/
theorem test_srl_by_31 :
    goesTo (start plain 0x40 0x0020D1B3 [(1, 0x80000000), (2, 0xFFFFFFFF)] []) 0x44 [(3, 0x1)] [] = true := by decide

/-- TR17: `sra x3, x1, x2`. -/
theorem test_sra_by_36 :
    goesTo (start plain 0x40 0x4020D1B3 [(1, 0x80000000), (2, 0x24)] []) 0x44 [(3, 0xF8000000)] [] = true := by decide

/-- TR19: `or x3, x1, x2`. -/
theorem test_or :
    goesTo (start plain 0x40 0x0020E1B3 [(1, 0xFF00FF00), (2, 0xFF00FF0)] [])
      0x44 [(3, 0xFFF0FFF0)] [] = true := by decide

/-- TR20: `and x3, x1, x2`. -/
theorem test_and :
    goesTo (start plain 0x40 0x0020F1B3 [(1, 0xFF00FF00), (2, 0xFF00FF0)] [])
      0x44 [(3, 0xF000F00)] [] = true := by decide

/-! ### 48_misc_mem_system.md -/

/-- TY3: `MISC-MEM word with rd = 5`. -/
theorem test_fence_rd_not_written :
    goesTo (start plain 0x40 0x0000028F [(5, 0x55)] []) 0x44 [] [] = true := by decide

/-- TY5: `ecall`. -/
theorem test_ecall_under_fault_policy :
    goesTo (start { plain with illegalPolicy := .fault } 0x40 0x00000073 [] []) 0x44 [] [] = true := by decide

/-- TY6: `ebreak`. -/
theorem test_ebreak :
    goesTo (start plain 0x40 0x00100073 [] []) 0x44 [] [] = true := by decide

/-- TY7: `csrrs x5, mcycle, x0`. -/
theorem test_system_csr_rd_not_written :
    goesTo (start plain 0x40 0xB00022F3 [(5, 0x7)] []) 0x44 [] [] = true := by decide

/-- TY10: `SYSTEM funct3 = 100`. -/
theorem test_system_funct3_4 :
    goesTo (start { plain with illegalPolicy := .fault } 0x40 0x000042F3 [(5, 0x7)] []) 0x44 [] [] = true := by decide

/-! ### 40_step_cycle.md, 60_exceptions.md and x0 -/

/-- TF1: `(word at 0x1FC) addi x1,x0,1`. -/
theorem test_fetch_last_word :
    goesTo (start plain 0x1FC 0x00100093 [] []) 0x200 [(1, 0x1)] [] = true := by decide

/-- TF2: `fetch at pc = 0x1FD`. -/
theorem test_fetch_straddles :
    faults (start plain 0x1FD 0x00000000 [] []) (.outOfRange .fetch 0x1FD .word) = true := by decide

/-- TF7: `addi x1,x0,1 fetched at pc = 0x42 (misaligned)`. -/
theorem test_fetch_misaligned :
    goesTo (start plain 0x42 0x00100093 [] []) 0x46 [(1, 0x1)] [] = true := by decide

/-- TF4: `word 0x00000000 (NOP policy)`. -/
theorem test_zero_word_nop :
    goesTo (start plain 0x40 0x00000000 [] []) 0x44 [] [] = true := by decide

/-- TF5: `word 0x00000000 (FAULT policy)`. -/
theorem test_zero_word_fault :
    faults (start { plain with illegalPolicy := .fault } 0x40 0x00000000 [] [])
      (.unrecognized 0x00000000) = true := by decide

/-- TR22: `mul x3, x1, x2 (funct7 0000001)`. -/
theorem test_mul_is_unrecognized :
    faults (start { plain with illegalPolicy := .fault } 0x40 0x022081B3 [(1, 0x6), (2, 0x7), (3, 0x55)] [])
      (.unrecognized 0x022081B3) = true := by decide

/-- TX4: `LOAD funct3 = 011 with immediate -4`. -/
theorem test_decode_before_data_access :
    faults (start { plain with illegalPolicy := .fault } 0x40 0xFFC03183 [(3, 0x55)] [])
      (.unrecognized 0xFFC03183) = true := by decide

/-- TX8: `addi x1, x0, 5`. -/
theorem test_x0_hardwired_reads_zero :
    goesTo (start { plain with x0Hardwired := true } 0x40 0x00500093 [(0, 0x7)] [])
      0x44 [(1, 0x5)] [] = true := by decide

/-- TJ14: `jalr x0, 0(x0)`. -/
theorem test_x0_hardwired_discards :
    goesTo (start { plain with x0Hardwired := true } 0x20 0x00000067 [(0, 0x80)] []) 0x0 [] [] = true := by decide

/-- TX2: the fault of a store that straddles the capacity, and what it leaves: each of the two bytes in range is old or
new, for every free value. -/
theorem test_sw_straddles :
    ∃ t, step (start plain 0x40 0x1E102F23 [(1, 0xAABBCCDD)] []) =
        .fault (.raised (.outOfRange .store 0x1FE .word) t) ∧ t.pc = 0x40 ∧
      (t.readByte 0x1FE = some 0 ∨ t.readByte 0x1FE = some 0xDD) ∧
      (t.readByte 0x1FF = some 0 ∨ t.readByte 0x1FF = some 0xCC) ∧ t.readByte 0x200 = none := by
  have h : step (start plain 0x40 0x1E102F23 [(1, 0xAABBCCDD)] []) = raise (.outOfRange .store 0x1FE .word)
      ((start plain 0x40 0x1E102F23 [(1, 0xAABBCCDD)] []).partialWrite 0x1FE .word 0xAABBCCDD) := rfl
  rw [h, State.partialWrite_eq]
  refine ⟨_, rfl, rfl, ?_⟩
  cases h0 : Config.storeDraw 0 0 <;> cases h1 : Config.storeDraw 0 1
  all_goals
    simp [Memory.drawn, start, plain, Config.default, byteOf, h0, h1, State.readByte, placeBytes, bytesOfWord,
      Memory.set, Memory.get]

/-- TX6: no step is defined after a fault. -/
theorem test_step_after_a_fault_is_stuck (f : FaultRecord) :
    step { start plain 0x40 0x00000013 [] [] with status := .faulted f } = .fault (.stuck f) := rfl

/-! ## Memory, construction, and placing a word (W2, W8) -/

theorem test_memory_round_trip :
    ((start (Config.default 0x300) 0x40 0 [] []).memWrite 0x200 .word 0xDEADBEEF).map
        (fun t => (t.memRead 0x200 .word, t.memRead 0x201 .half, t.memRead 0x203 .byte, t.mem)) =
      some (some 0xDEADBEEF, some 0xADBE, some 0xDE, [(0x200, 0xEF), (0x201, 0xBE), (0x202, 0xAD), (0x203, 0xDE)]) := by
  decide

/-- The canonical form: writing zeros lists nothing. -/
theorem test_writing_zero_unlists :
    (start plain 0x40 0 [] [(0x100, 1), (0x101, 2)]).memWrite 0x100 .half 0 = some (start plain 0x40 0 [] []) := by
  decide

theorem test_construction_fills_and_truncates :
    (State.construct (Config.default 8) [0x13, 0, 0, 0, 0xAA] (some 0) (Vector.replicate 32 0)).mem =
        [(0, 0x13), (4, 0xAA)] ∧
    (State.construct (Config.default 2) [1, 2, 3] (some 0) (Vector.replicate 32 0)).mem = [(0, 1), (1, 2)] ∧
    faults (State.construct (Config.default 2) [1, 2, 3] (some 0) (Vector.replicate 32 0))
      (.outOfRange .fetch 0 .word) = true := by decide

/-- The first step after reset runs the word placed, and its row's instruction is decoded. -/
theorem test_first_step_after_reset :
    goesTo (State.reset.withFetchWord 32 0x123452B7) 0x4 [(5, 0x12345000)] [] = true ∧
    goesTo (State.reset.withFetchWord 32 0x00000073) 0x4 [] [] = true ∧
    decodeTableWord 32 0x123452B7 = some (.lui 5 0x12345) ∧ decodeTableWord 32 0 = none := by decide

/-! ## Witnesses: states and operands that meet the hypotheses of each statement that has some, clause by clause, at the
boundary where the clause has one -/

theorem test_witness_JalLinksAndJumps :
    (1048574 : BitVec 21).getLsbD 0 = false ∧ (-1048576 : BitVec 21).getLsbD 0 = false := by decide

/-- JALR's base: linked first with rd = rs1, with a hardwired x0, with another rd, and linked last. -/
theorem test_witness_JalrLinksAndJumpsInEitherOrder :
    (∀ p ∈ [((start plain 0x20 0x010080E7 [(1, 0x100)] []), (1 : RegIdx), (1 : RegIdx), (0x24 : Word)),
        (start { plain with x0Hardwired := true } 0x20 0x00000067 [(0, 0x80)] [], 0, 0, 0),
        (start plain 0x20 0x00108167 [(1, 0x100)] [], 2, 1, 0x100),
        (start { plain with jalrLinkFirst := false } 0x20 0x010080E7 [(1, 0x100)] [], 1, 1, 0x100)],
      ((p.1.cfg.jalrLinkFirst = true ∧ p.2.1 = p.2.2.1 ∧ ¬(p.1.cfg.x0Hardwired = true ∧ p.2.1 = 0)) →
        p.2.2.2 = p.1.pc + 4) ∧
      (¬(p.1.cfg.jalrLinkFirst = true ∧ p.2.1 = p.2.2.1 ∧ ¬(p.1.cfg.x0Hardwired = true ∧ p.2.1 = 0)) →
        p.2.2.2 = p.1.reg p.2.2.1)) := by decide

/-- For each of the six branches a state where its condition holds and one where it does not, at the sign boundary,
with offsets at the ends of their range. -/
theorem test_witness_branches :
    (4094 : BitVec 13).getLsbD 0 = false ∧ (-4096 : BitVec 13).getLsbD 0 = false ∧
    let s := start plain 0x40 0 [(1, 0x80000000), (2, 0x7FFFFFFF), (3, 0x80000000)] []
    (s.reg 1).toNat = (s.reg 3).toNat ∧ (s.reg 1).toNat ≠ (s.reg 2).toNat ∧
    (s.reg 1).toInt < (s.reg 2).toInt ∧ ¬(s.reg 1).toInt < (s.reg 3).toInt ∧
    (s.reg 1).toInt ≥ (s.reg 3).toInt ∧ ¬(s.reg 1).toInt ≥ (s.reg 2).toInt ∧
    (s.reg 2).toNat < (s.reg 1).toNat ∧ ¬(s.reg 1).toNat < (s.reg 3).toNat ∧
    (s.reg 1).toNat ≥ (s.reg 3).toNat ∧ ¬(s.reg 2).toNat ≥ (s.reg 1).toNat := by decide

/-- The last address in range and the first out of range, for each width of load: the base is x1 = 0x200. -/
theorem test_witness_loads :
    let s := start plain 0x40 0 [(1, 0x200)] []
    IsBasePlus 0x1FF s 1 (-1) ∧ 0x1FF + 1 ≤ s.cfg.memSize ∧
    IsBasePlus 0x200 s 1 0 ∧ s.cfg.memSize < 0x200 + 1 ∧
    IsBasePlus 0x1FE s 1 (-2) ∧ 0x1FE + 2 ≤ s.cfg.memSize ∧ s.cfg.memSize < 0x1FF + 2 ∧
    IsBasePlus 0x1FC s 1 (-4) ∧ 0x1FC + 4 ≤ s.cfg.memSize ∧
    IsBasePlus 0x1FD s 1 (-3) ∧ s.cfg.memSize < 0x1FD + 4 ∧
    IsBasePlus 0xFFFFFFFF s 0 (-1) := by
  unfold IsBasePlus; decide

theorem test_witness_StoresWriteLowBytes :
    let s := start plain 0x40 0 [(1, 0x200), (2, 0xCAFEF00D)] []
    s.Sound ∧
    (storeAddr s 1 (-1)).toNat + 1 ≤ s.cfg.memSize ∧ s.cfg.memSize < (storeAddr s 1 0).toNat + 1 ∧
    (storeAddr s 1 (-2)).toNat + 2 ≤ s.cfg.memSize ∧ s.cfg.memSize < (storeAddr s 1 (-1)).toNat + 2 ∧
    (storeAddr s 1 (-4)).toNat + 4 ≤ s.cfg.memSize ∧ s.cfg.memSize < (storeAddr s 1 (-3)).toNat + 4 := by
  unfold State.Sound; decide

theorem test_witness_RegisterShiftsUseFiveBits :
    31 = ((start plain 0x40 0 [(2, 0xFFFFFFFF)] []).reg 2).toNat % 32 ∧
    0 = ((start plain 0x40 0 [(2, 0x20)] []).reg 2).toNat % 32 := by decide

theorem test_witness_SystemClassOnlyAdvances :
    0x00000073#32 = iWord 0 0 0 0 0x73 ∧
    ∃ w, w = iWord 2 0 0 0 0x73 ∧ w ≠ 0x00000073#32 ∧ w ≠ 0x00100073#32 := by
  exact ⟨by decide, _, rfl, by decide, by decide⟩

theorem test_witness_DecodeInvertsEncode :
    (Instr.beq 31 31 (-4096)).wellFormed = true ∧ (Instr.jal 31 1048574).wellFormed = true ∧
    (Instr.system 0xFFF 31 7 31).wellFormed = true ∧ (Instr.sw 31 31 (-2048)).wellFormed = true := by decide

theorem test_witness_EncodeInvertsDecode :
    decode 0x00200073#32 = .ok (.system 2 0 0 0) ∧ decode 0xFE000FE3#32 = .ok (.beq 0 0 (-2)) ∧
    decode 0xFFFFFFEF#32 = .ok (.jal 31 (-2)) := by decide

/-- Both sides of each clause of R83's list: a word it names, and a word beside it that decodes. -/
theorem test_witness_UnrecognizedWordsAreExactlyTheListed :
    decode 0x0000006B#32 = .error .opcode ∧ decode 0x0000006F#32 = .ok (.jal 0 0) ∧
    decode 0x00001067#32 = .error .jalrFunct3 ∧ decode 0x00000067#32 = .ok (.jalr 0 0 0) ∧
    decode 0x00003063#32 = .error .branchFunct3 ∧ decode 0x00004063#32 = .ok (.blt 0 0 0) ∧
    decode 0x00006003#32 = .error .loadFunct3 ∧ decode 0x00005003#32 = .ok (.lhu 0 0 0) ∧
    decode 0x00003023#32 = .error .storeFunct3 ∧ decode 0x00002023#32 = .ok (.sw 0 0 0) ∧
    decode 0x42005013#32 = .error .shiftFunct7 ∧ decode 0x40005013#32 = .ok (.srai 0 0 0) ∧
    decode 0x40007033#32 = .error .opFunct7 ∧ decode 0x40005033#32 = .ok (.sra 0 0 0) := by decide

theorem test_witness_RegisterZeroFollowsItsParameter :
    (start { plain with x0Hardwired := true } 0x40 0 [(0, 7)] []).cfg.x0Hardwired = true ∧
    (start plain 0x40 0 [(0, 7)] []).cfg.x0Hardwired = false ∧ (1 : RegIdx) ≠ 0 ∧ (0 : RegIdx) ≠ 1 := by decide

theorem test_witness_reads_and_writes :
    let s := start plain 0x40 0 [] [(0x1FF, 0x80)]
    s.Sound ∧ (∃ v, s.memRead 0x1FC .word = some v) ∧ s.memRead 0x1FD .word = none ∧
    (∃ t, s.memWrite 0x1FC .word 0xCAFEF00D = some t) ∧ s.memWrite 0x1FD .word 0xCAFEF00D = none := by
  refine ⟨by unfold State.Sound; decide, ⟨_, rfl⟩, by decide, ⟨_, rfl⟩, by decide⟩

/-- A failed write with bytes in range, and one with none. -/
theorem test_witness_FailedWritesLeaveOldOrNewBytes :
    let s := start plain 0x40 0 [] [(0x1FF, 0x80)]
    s.Sound ∧ s.memWrite 0x1FF .half 0x1234 = none ∧ s.memWrite 0x200 .byte 0x12 = none ∧
    s.cfg.memSize ≤ 0x200 := by
  refine ⟨by unfold State.Sound; decide, by decide, by decide, by decide⟩

theorem test_witness_ReadsSeeTheBytesWritten :
    let s := start plain 0x40 0 [] []
    s.Sound ∧ (∃ t, s.memWrite 0x1FC .word 0xCAFEF00D = some t) ∧ 3 + Width.byte.bytes ≤ Width.word.bytes ∧
    2 + Width.half.bytes ≤ Width.word.bytes := by
  refine ⟨by unfold State.Sound; decide, ⟨_, rfl⟩, by decide, by decide⟩

/-- The last place of a word in range. -/
theorem test_witness_StepRunsTheDecodedInstruction :
    let s := start plain 0x1FC 0x00100093 [] []
    s.status = .running ∧ s.memRead s.pc.toNat .word = some 0x00100093 ∧
    decode 0x00100093 = .ok (.addi 1 0 1) := by decide

theorem test_witness_FetchIsOnlyRangeChecked :
    (start plain 0x1FC 0x00100093 [] []).status = .running ∧ 0x1FC + 4 ≤ plain.memSize ∧
    decode (0x00#8 ++ 0x10#8 ++ 0x00#8 ++ 0x93#8) = .ok (.addi 1 0 1) ∧
    (start plain 0x1FD 0 [] []).status = .running ∧ plain.memSize < 0x1FD + 4 := by decide

theorem test_witness_UnrecognizedWordsFollowThePolicy :
    let s := start plain 0x1FC 0x022081B3 [] []
    let t := start { plain with illegalPolicy := .fault } 0x1FC 0x022081B3 [] []
    decode 0x022081B3 = .error .opFunct7 ∧
    s.status = .running ∧ s.memRead s.pc.toNat .word = some 0x022081B3 ∧ s.cfg.illegalPolicy = .nop ∧
    t.status = .running ∧ t.memRead t.pc.toNat .word = some 0x022081B3 ∧ t.cfg.illegalPolicy = .fault := by decide

/-- A step that raises: by its fetch, its word, a load and a store; each state is sound. -/
theorem test_witness_of_raised_faults :
    (∃ t, step (start plain 0x1FD 0 [] []) = .fault (.raised (.outOfRange .fetch 0x1FD .word) t)) ∧
    (∃ t, step (start { plain with illegalPolicy := .fault } 0x40 0x022081B3 [] []) =
      .fault (.raised (.unrecognized 0x022081B3) t)) ∧
    (∃ t, step (start plain 0x40 0x1FD02183 [] []) = .fault (.raised (.outOfRange .load 0x1FD .word) t)) ∧
    (∃ t, step (start plain 0x40 0x1E101FA3 [(1, 0x1234)] []) =
      .fault (.raised (.outOfRange .store 0x1FF .half) t)) :=
  ⟨⟨_, rfl⟩, ⟨_, rfl⟩, ⟨_, rfl⟩, ⟨_, rfl⟩⟩

theorem test_witness_of_sound_faulting_states :
    (start plain 0x1FD 0 [] []).Sound ∧ (start { plain with illegalPolicy := .fault } 0x40 0x022081B3 [] []).Sound ∧
    (start plain 0x40 0x1FD02183 [] []).Sound ∧ (start plain 0x40 0x1E101FA3 [(1, 0x1234)] []).Sound := by
  unfold State.Sound; decide

/-- The premises of each clause of FaultsComeInOrder, at the states above. -/
theorem test_witness_FaultsComeInOrder :
    plain.memSize < (0x1FD#32).toNat + 4 ∧
    (start plain 0x40 0x022081B3 [] []).memRead 0x40 .word = some 0x022081B3 ∧
    decode 0x022081B3 = .error .opFunct7 ∧
    (start plain 0x40 0x1FD02183 [] []).memRead 0x40 .word = some 0x1FD02183 ∧
    decode 0x1FD02183 = .ok (.lw 3 0 0x1FD) ∧
    (start plain 0x40 0x1E101FA3 [] []).memRead 0x40 .word = some 0x1E101FA3 ∧
    decode 0x1E101FA3 = .ok (.sh 0 1 0x1FF) := by decide

theorem test_witness_TheBlockStopsOnlyByAFault :
    let s := start plain 0x1FC 0xFFFFFFFF [] []
    s.status = .running ∧ s.cfg.illegalPolicy = .nop ∧ s.memRead s.pc.toNat .word = some 0xFFFFFFFF ∧
    (0xFFFFFFFF#32).extractLsb' 0 7 ≠ 0x03#7 ∧ (0xFFFFFFFF#32).extractLsb' 0 7 ≠ 0x23#7 := by decide

theorem test_witness_SystemAndFenceWordsNeverFault :
    let s := start { plain with illegalPolicy := .fault } 0x1FC 0xFFFFFFF3 [] []
    let t := start { plain with illegalPolicy := .fault } 0x1FC 0xFFFFFF8F [] []
    s.status = .running ∧ s.memRead s.pc.toNat .word = some 0xFFFFFFF3 ∧
    (0xFFFFFFF3#32).extractLsb' 0 7 = 0x73#7 ∧
    t.status = .running ∧ t.memRead t.pc.toNat .word = some 0xFFFFFF8F ∧
    (0xFFFFFF8F#32).extractLsb' 0 7 = 0x0F#7 := by
  decide

/-- A sound state with a next state; `test_witness_of_raised_faults` has sound states with faults. -/
theorem test_witness_StepKeepsTheStateSound :
    (start plain 0x40 0x1E102E23 [(1, 0xCAFEF00D)] []).Sound ∧
    ∃ t, step (start plain 0x40 0x1E102E23 [(1, 0xCAFEF00D)] []) = .next t := by
  refine ⟨by unfold State.Sound; decide, _, rfl⟩

theorem test_witness_ConstructionIsSound :
    (Config.default 4294967296).memSize ≤ 4294967296 ∧ (Config.default 0).memSize ≤ 4294967296 := by decide

/-- Three completed steps, a store among them. -/
theorem test_witness_RunsKeepParametersAndSoundness :
    let s := start plain 0x40 0x02102023 [(1, 0x00100093)] []
    s.status = .running ∧ s.Sound ∧ ∃ t, RunsTo 3 s t := by
  refine ⟨rfl, by unfold State.Sound; decide, _, rfl⟩

/-- A store, a branch, an unrecognized word and an addition, each completing. -/
theorem test_witness_of_completed_steps :
    (start plain 0x40 0x1E102E23 [] []).memRead 0x40 .word = some 0x1E102E23 ∧
    (start plain 0x40 0x00208463 [] []).memRead 0x40 .word = some 0x00208463 ∧
    (start plain 0x40 0xFFFFFFFF [] []).memRead 0x40 .word = some 0xFFFFFFFF ∧
    (start plain 0x40 0x00100093 [] []).memRead 0x40 .word = some 0x00100093 ∧
    (∃ t, step (start plain 0x40 0x1E102E23 [] []) = .next t) ∧
    (∃ t, step (start plain 0x40 0x00208463 [] []) = .next t) ∧
    (∃ t, step (start plain 0x40 0xFFFFFFFF [] []) = .next t) ∧
    (∃ t, step (start plain 0x40 0x00100093 [] []) = .next t) ∧
    (0x1E102E23#32).extractLsb' 0 7 = 0x23#7 ∧ (0x00100093#32).extractLsb' 0 7 ≠ 0x23#7 ∧
    decode 0xFFFFFFFF = .error .opcode :=
  ⟨by decide, by decide, by decide, by decide, ⟨_, rfl⟩, ⟨_, rfl⟩, ⟨_, rfl⟩, ⟨_, rfl⟩, by decide,
    by decide, by decide⟩

/-- Two states that differ in x7 alone, at the word `w`. -/
def differInX7 (w : Word) : State × State :=
  (start plain 0x40 w [(1, 5), (2, 6), (7, 1)] [], start plain 0x40 w [(1, 5), (2, 6), (7, 2)] [])

/-- At an ADD of x1 and x2, and at a store of x2 that is out of range. -/
theorem test_witness_AStepReadsOnlyItsSources :
    (let (s, t) := differInX7 0x002081B3
     s ≠ t ∧ s.status = .running ∧ t.status = .running ∧ s.cfg = t.cfg ∧ s.pc = t.pc ∧ s.mem = t.mem ∧
     s.draws = t.draws ∧ s.memRead s.pc.toNat .word = some 0x002081B3 ∧ s.reg 1 = t.reg 1 ∧ s.reg 2 = t.reg 2) ∧
    (let (s, t) := differInX7 0x1E202FA3
     s ≠ t ∧ s.status = .running ∧ t.status = .running ∧ s.cfg = t.cfg ∧ s.pc = t.pc ∧ s.mem = t.mem ∧
     s.draws = t.draws ∧ s.memRead s.pc.toNat .word = some 0x1E202FA3 ∧ s.reg 0 = t.reg 0 ∧ s.reg 2 = t.reg 2) ∧
    (0x002081B3#32).extractLsb' 15 5 = 1 ∧ (0x002081B3#32).extractLsb' 20 5 = 2 ∧
    (0x1E202FA3#32).extractLsb' 15 5 = 0 ∧ (0x1E202FA3#32).extractLsb' 20 5 = 2 := by
  refine ⟨?_, ?_, by decide, by decide, by decide, by decide⟩ <;>
    exact ⟨by decide, rfl, rfl, rfl, rfl, by decide, rfl, by decide, by decide, by decide⟩

/-- The next instruction is the last word of memory: an SB to its last byte (k = 3 is stored, k = 2 is not), an SH before
it (no byte of it is stored) and an SW to all of it. -/
theorem test_witness_AFetchSeesTheStoreBeforeIt :
    let s := start plain 0x1F8 0x1E102E23 [(1, 0x00100093)] []
    s.Sound ∧ (s.pc + 4).toNat = 0x1FC ∧ 0x1FC + 4 ≤ s.cfg.memSize ∧
    (storeAddr s 0 0x1FF).toNat = 0x1FF ∧ 0x1FF + Width.byte.bytes ≤ s.cfg.memSize ∧
    (storeAddr s 0 0x1FA).toNat = 0x1FA ∧ 0x1FA + Width.half.bytes ≤ 0x1FC ∧
    (storeAddr s 0 0x1FC).toNat = 0x1FC ∧ 0x1FC + Width.word.bytes ≤ s.cfg.memSize := by
  unfold State.Sound; decide

/-- An image longer than the capacity and one shorter; an entry point and none. -/
theorem test_witness_ConstructionLoadsTheImage :
    (State.construct (Config.default 2) [1, 2, 3] (some 0xFFFFFFFF) (Vector.replicate 32 7)).pc = 0xFFFFFFFF ∧
    1 < (Config.default 2).memSize ∧ (Config.default 2).memSize ≤ 2 ∧
    (State.construct (Config.default 8) [1, 2, 3] none (Vector.replicate 32 7)).pc = 0 ∧
    7 < (Config.default 8).memSize ∧ (Config.default 8).memSize ≤ 8 := by decide

theorem test_witness_EntryOutOfRangeFaultsAtOnce :
    (Config.default 0x10).memSize < (0x0D#32).toNat + 4 ∧ (Config.default 0).memSize = 0 := by decide

/-- Two zero words at the end of memory. -/
theorem test_witness_ZeroWordsRunAsNoOps :
    let s := start plain 0x1F8 0 [] []
    s.status = .running ∧ s.cfg.illegalPolicy = .nop ∧ s.cfg.memSize ≤ 4294967296 ∧
    s.pc.toNat + 4 * 2 ≤ s.cfg.memSize ∧
    ∀ a, s.pc.toNat ≤ a → a < s.pc.toNat + 4 * 2 → s.readByte a = some 0 := by
  refine ⟨rfl, rfl, by decide, by decide, fun a _ h => State.readByte_of_lt (s := start plain 0x1F8 0 [] []) ?_⟩
  exact Nat.lt_of_lt_of_le h (by decide)

/-- A host access that ends at the capacity, and one that starts there. -/
theorem test_witness_HostOperationsFollowTheContract :
    let s := start plain 0x40 0 [(1, 0x80000000)] []
    s.Sound ∧ (∃ x, s.hostRead 0x1FC .word = some x) ∧ (0x1FC#32).toNat + Width.word.bytes ≤ s.cfg.memSize ∧
    s.cfg.memSize < (0x200#32).toNat + Width.byte.bytes ∧ s.hostReadReg 1 = -2147483648 := by
  refine ⟨by unfold State.Sound; decide, ⟨_, rfl⟩, by decide, by decide, by decide⟩

/-- R306's ends from a running state: at `STOP_PC` with that condition alone, by `MAX_STEPS` alone, by a fault with
neither, and a run that goes on (the self-loop `beq x0, x0, 0`). Where both conditions hold at once `STOP_PC` is reported,
the model's choice (notes/assumptions/15.md). -/
theorem test_witness_ARunEndsByAFaultOrByTheHost :
    (start plain 0x1FC 0 [] []).status = .running ∧
    (∃ t, runHost (some 0x200) none 5 (start plain 0x1FC 0 [] []) = some (.stopPc t)) ∧
    (∃ t, runHost none (some 1) 5 (start plain 0x1FC 0 [] []) = some (.maxSteps t)) ∧
    (∃ f t, runHost none none 5 (start plain 0x1FC 0 [] []) = some (.fault f t)) ∧
    runHost (some 0x200) none 5 (start plain 0x40 0x00000063 [] []) = none ∧
    (∃ t, runHost (some 0x200) (some 1) 5 (start plain 0x1FC 0 [] []) = some (.stopPc t)) :=
  ⟨rfl, ⟨_, rfl⟩, ⟨_, rfl⟩, ⟨_, _, rfl⟩, rfl, ⟨_, rfl⟩⟩

/-- A run of R306 with `STOP_PC` alone, its end named by no number of steps. -/
theorem test_run_with_stop_pc_alone :
    ∃ t, RunEndsWith (some 0x200) none (start plain 0x1FC 0x00100093 [] []) (.stopPc t) ∧ t.reg 1 = 1 :=
  ⟨_, ⟨1, rfl⟩, by decide⟩

/-- A constant whose low part is negative, and the largest one. -/
theorem test_witness_UpperAndLowerPartsRebuildAConstant :
    0xFFF#12 = (0x12345FFF#32).extractLsb' 0 12 ∧
    0x12346#20 = ((0x12345FFF#32 - (0xFFF#12).signExtend 32) >>> 12).extractLsb' 0 20 ∧
    0x00000#20 = ((0xFFFFFFFF#32 - (0xFFF#12).signExtend 32) >>> 12).extractLsb' 0 20 := by decide

theorem test_witness_TheCallSequenceDependsOnTheLinkOrder :
    (start plain 0 0 [] []).cfg.jalrLinkFirst = true ∧
    (start { plain with jalrLinkFirst := false } 0 0 [] []).cfg.jalrLinkFirst = false := by decide

end Sys2Proof.Tests
end

section
/-! SUPPORT. What a completed step and a run of completed steps can do, said once (40_step_cycle.md R100, R105). -/

namespace Sys2Proof.Machine

/-! ## A completed step -/

theorem raise_ne_next (f : FaultRecord) (s t : State) : raise f s ≠ .next t := nofun

/-- An unrecognized word that completes only advances the pc (R106). -/
theorem eq_setPc_of_execUnrecognized {w : Word} {s t : State} (h : execUnrecognized w s = .next t) :
    t = s.setPc (s.pc + 4) := by
  unfold execUnrecognized at h
  split at h
  · cases h; rfl
  · exact absurd h (raise_ne_next _ _ _)

/-- The two ways a step completes: an unrecognized word is passed over, or the decoded instruction completes. -/
theorem step_next_cases {s t : State} (h : step s = .next t) :
    s.status = .running ∧ ∃ w, fetch s = some w ∧
      ((∃ r, decode w = .error r ∧ t = s.setPc (s.pc + 4)) ∨ (∃ i, decode w = .ok i ∧ exec i s = .next t)) := by
  rcases step_cases s with ⟨f, -, he⟩ | ⟨-, -, he⟩ | ⟨hr, w, r, hf, hd, he⟩ | ⟨hr, w, i, hf, hd, he⟩ <;> rw [he] at h
  · cases h
  · exact absurd h (raise_ne_next _ _ _)
  · exact ⟨hr, w, hf, .inl ⟨r, hd, eq_setPc_of_execUnrecognized h⟩⟩
  · exact ⟨hr, w, hf, .inr ⟨i, hd, h⟩⟩

/-! ## What completed steps keep -/

/-- `t` has the parameters and the draw counter of `s`, and is running and sound. -/
structure SafeAlong (s t : State) : Prop where
  cfg : t.cfg = s.cfg
  running : t.status = .running
  sound : t.Sound
  draws : t.draws = s.draws

theorem SafeAlong.refl {s : State} (hr : s.status = .running) (hs : s.Sound) : SafeAlong s s := ⟨rfl, hr, hs, rfl⟩

theorem SafeAlong.trans {s t u : State} (hst : SafeAlong s t) (htu : SafeAlong t u) : SafeAlong s u :=
  ⟨htu.cfg.trans hst.cfg, htu.running, htu.sound, htu.draws.trans hst.draws⟩

theorem SafeAlong.setPc {s t : State} (h : SafeAlong s t) (a : Word) : SafeAlong s (t.setPc a) :=
  ⟨h.cfg, h.running, h.sound.congr rfl rfl, h.draws⟩

theorem SafeAlong.writeReg {s t : State} (h : SafeAlong s t) (rd : RegIdx) (v : Word) :
    SafeAlong s (t.writeReg rd v) :=
  ⟨by simpa using h.cfg, by simpa using h.running, h.sound.congr (by simp) (by simp), by simpa using h.draws⟩

/-- A meaning that completes keeps a running state safe: only an out-of-range store draws free values. -/
theorem Effect.safeAlong {s t : State} {r : Result} (he : Effect s r) (h : r = .next t)
    (hr : s.status = .running) (hs : s.Sound) : SafeAlong s t := by
  cases he with
  | wrote rd v a => cases h; exact ((SafeAlong.refl hr hs).writeReg rd v).setPc a
  | moved a => cases h; exact (SafeAlong.refl hr hs).setPc a
  | stored addr v n hle => cases h; exact ⟨rfl, hr, (hs.stored v hle).congr rfl rfl, rfl⟩
  | loadFault => exact absurd h (raise_ne_next _ _ _)
  | storeFault => exact absurd h (raise_ne_next _ _ _)

theorem step_safeAlong {s t : State} (h : step s = .next t) (hs : s.Sound) : SafeAlong s t := by
  obtain ⟨hr, w, -, ⟨r, -, rfl⟩ | ⟨i, -, he⟩⟩ := step_next_cases h
  · exact (SafeAlong.refl hr hs).setPc _
  · exact (exec_effect i s).safeAlong he hr hs

/-! ## Runs -/

theorem core_step (s : State) : core.step s = step s := rfl

theorem runsTo_zero {s t : State} : RunsTo 0 s t ↔ s = t :=
  ⟨Host.Outcome.next.inj, congrArg Host.Outcome.next⟩

theorem runsTo_succ {k : Nat} {s t : State} : RunsTo (k + 1) s t ↔ ∃ u, step s = .next u ∧ RunsTo k u t := by
  simp only [RunsTo, Host.Core.run, core_step]
  cases step s with
  | next u => exact ⟨fun h => ⟨u, rfl, h⟩, by rintro ⟨_, ⟨⟩, h⟩; exact h⟩
  | fault r => exact ⟨nofun, nofun⟩
  | refused r => exact ⟨nofun, nofun⟩

/-- What every completed step keeps, every run of completed steps keeps. -/
theorem RunsTo.keeps {P : State → Prop} (hstep : ∀ u v, P u → step u = .next v → P v) {k : Nat} {s t : State}
    (h : RunsTo k s t) (hs : P s) : P t := by
  induction k generalizing s with
  | zero => exact runsTo_zero.mp h ▸ hs
  | succ k ih =>
    obtain ⟨u, hu, hrest⟩ := runsTo_succ.mp h
    exact ih hrest (hstep s u hs hu)

theorem RunsTo.safeAlong {k : Nat} {s t : State} (h : RunsTo k s t) (hr : s.status = .running) (hs : s.Sound) :
    SafeAlong s t :=
  h.keeps (P := SafeAlong s) (fun _ _ hu hv => hu.trans (step_safeAlong hv hu.sound)) (.refl hr hs)

end Sys2Proof.Machine
end

section
/-! SUPPORT. Which instructions change memory, and where: the stores alone, at the address their word's fields give
(45_stores.md R180). -/

namespace Sys2Proof

open Machine

/-! ## The stores among the instructions -/

/-- The width, `rs1`, `rs2` and immediate of a store; `none` for every other instruction. -/
def Instr.storeOperands : Instr → Option (Width × RegIdx × RegIdx × BitVec 12)
  | .sb rs1 rs2 imm => some (.byte, rs1, rs2, imm)
  | .sh rs1 rs2 imm => some (.half, rs1, rs2, imm)
  | .sw rs1 rs2 imm => some (.word, rs1, rs2, imm)
  | _ => none

/-- Where a word with the decoding `r` is an instruction, it is no store. -/
def NoStore (r : Except Reject Instr) : Prop := ∀ i, r = .ok i → i.storeOperands = none

theorem NoStore.ok {i : Instr} (h : i.storeOperands = none) : NoStore (.ok i) := by
  rintro _ ⟨⟩; exact h

theorem NoStore.error (r : Reject) : NoStore (.error r) := nofun

theorem NoStore.ite {c : Prop} [Decidable c] {a b : Except Reject Instr} (ha : NoStore a) (hb : NoStore b) :
    NoStore (if c then a else b) := by
  split
  · exact ha
  · exact hb

/-! ### The decoder of each other class (30_encoding.md R81) answers no store -/

theorem noStore_decodeJalr (w : Word) : NoStore (decodeJalr w) := .ite (.ok rfl) (.error _)

theorem noStore_decodeBranch (w : Word) : NoStore (decodeBranch w) :=
  .ite (.ok rfl) <| .ite (.ok rfl) <| .ite (.ok rfl) <| .ite (.ok rfl) <| .ite (.ok rfl) <| .ite (.ok rfl) <| .error _

theorem noStore_decodeLoad (w : Word) : NoStore (decodeLoad w) :=
  .ite (.ok rfl) <| .ite (.ok rfl) <| .ite (.ok rfl) <| .ite (.ok rfl) <| .ite (.ok rfl) <| .error _

theorem noStore_decodeOpImm (w : Word) : NoStore (decodeOpImm w) :=
  .ite (.ok rfl) <| .ite (.ok rfl) <| .ite (.ok rfl) <| .ite (.ok rfl) <| .ite (.ok rfl) <| .ite (.ok rfl) <|
    .ite (.ite (.ok rfl) (.error _)) <| .ite (.ok rfl) <| .ite (.ok rfl) <| .error _

theorem noStore_decodeOp (w : Word) : NoStore (decodeOp w) :=
  .ite (.ite (.ok rfl) <| .ite (.ok rfl) <| .ite (.ok rfl) <| .ite (.ok rfl) <| .ite (.ok rfl) <| .ite (.ok rfl) <|
    .ite (.ok rfl) <| .ok rfl) <| .ite (.ite (.ok rfl) <| .ite (.ok rfl) <| .error _) <| .error _

theorem noStore_decodeFence (w : Word) : NoStore (decodeFence w) := .ok rfl

theorem noStore_decodeSystem (w : Word) : NoStore (decodeSystem w) :=
  .ite (.ok rfl) <| .ite (.ok rfl) <| .ok rfl

/-- A word of another opcode than STORE decodes to no store. -/
theorem noStore_decode_of_opcode_ne {w : Word} (hop : opcodeOf w ≠ 0x23#7) : NoStore (decode w) := by
  rw [decode, if_neg (c := opcodeOf w = 0x23#7) hop]
  exact .ite (.ok rfl) <| .ite (.ok rfl) <| .ite (.ok rfl) <| .ite (noStore_decodeJalr w) <|
    .ite (noStore_decodeBranch w) <| .ite (noStore_decodeLoad w) <| .ite (noStore_decodeOpImm w) <|
    .ite (noStore_decodeOp w) <| .ite (noStore_decodeFence w) <| .ite (noStore_decodeSystem w) <| .error _

/-- A store that a word decodes to takes its operands from the word's S-format fields (30_encoding.md R73). -/
theorem storeOperands_of_decodeStore {w : Word} {i : Instr} (hd : decodeStore w = .ok i) :
    ∃ n, i.storeOperands = some (n, rs1Of w, rs2Of w, immSOf w) := by
  unfold decodeStore at hd
  split_ifs at hd <;> cases hd
  · exact ⟨.byte, rfl⟩
  · exact ⟨.half, rfl⟩
  · exact ⟨.word, rfl⟩

theorem decode_of_opcode_store {w : Word} (hop : opcodeOf w = 0x23#7) : decode w = decodeStore w := by
  simp [decode, hop]

namespace Machine

theorem exec_of_storeOperands {i : Instr} {n : Width} {rs1 rs2 : RegIdx} {imm : BitVec 12}
    (h : i.storeOperands = some (n, rs1, rs2, imm)) (s : State) : exec i s = store n rs1 rs2 imm s := by
  cases i <;> cases h <;> rfl

/-! ## Meanings that leave memory alone -/

/-- Where `r` is a next state, it has the parameters and the memory of `s`. -/
def KeepsMemory (s : State) (r : Result) : Prop := ∀ t, r = .next t → t.cfg = s.cfg ∧ t.mem = s.mem

theorem KeepsMemory.readByte {s t : State} {r : Result} (h : KeepsMemory s r) (ht : r = .next t) (a : Nat) :
    t.readByte a = s.readByte a :=
  State.readByte_congr (h t ht).1 (h t ht).2 a

theorem KeepsMemory.of_setPc_writeReg (s : State) (rd : RegIdx) (v a : Word) :
    KeepsMemory s (.next ((s.writeReg rd v).setPc a)) := by
  rintro t ⟨⟩; simp

theorem KeepsMemory.of_setPc (s : State) (a : Word) : KeepsMemory s (.next (s.setPc a)) := by
  rintro t ⟨⟩; exact ⟨rfl, rfl⟩

theorem KeepsMemory.of_raise (s : State) (f : FaultRecord) (u : State) : KeepsMemory s (raise f u) :=
  fun t h => absurd h (raise_ne_next f u t)

theorem KeepsMemory.of_writeBack (rd : RegIdx) (v : Word) (s : State) : KeepsMemory s (writeBack rd v s) := by
  rw [writeBack_eq]; exact .of_setPc_writeReg s rd v _

theorem KeepsMemory.of_load (n : Width) (extend : Word → Word) (rd rs1 : RegIdx) (imm : BitVec 12) (s : State) :
    KeepsMemory s (load n extend rd rs1 imm s) := by
  rcases Nat.lt_or_ge s.cfg.memSize ((loadAddr s rs1 imm).toNat + n.bytes) with h | h
  · rw [load_of_gt extend rd h]; exact .of_raise s _ s
  · rw [load_of_le extend rd h]; exact .of_writeBack rd _ s

/-- Every instruction but the stores leaves memory alone (20_memory.md R51). -/
theorem exec_keepsMemory {i : Instr} (h : i.storeOperands = none) (s : State) : KeepsMemory s (exec i s) := by
  cases i
  case sb | sh | sw => cases h
  case jal rd off => exact .of_setPc_writeReg s rd _ _
  case jalr rd rs1 imm => exact .of_setPc_writeReg s rd _ _
  case lb | lh | lw | lbu | lhu => exact .of_load _ _ _ _ _ s
  case beq | bne | blt | bge | bltu | bgeu => exact .of_setPc s _
  case fence | ecall | ebreak | system => exact .of_setPc s _
  all_goals exact .of_writeBack _ _ s

/-! ## What a completed store changes -/

theorem Width.bytes_le_four (n : Width) : n.bytes ≤ 4 := by cases n <;> decide

/-- A completed store leaves every byte outside the four from its address on as it was. -/
theorem readByte_of_store {n : Width} {rs1 rs2 : RegIdx} {imm : BitVec 12} {s t : State} {a : Nat}
    (h : store n rs1 rs2 imm s = .next t)
    (ha : a < (storeAddr s rs1 imm).toNat ∨ (storeAddr s rs1 imm).toNat + 4 ≤ a) :
    t.readByte a = s.readByte a := by
  rcases Nat.lt_or_ge s.cfg.memSize ((storeAddr s rs1 imm).toNat + n.bytes) with hgt | hle
  · rw [store_of_gt rs2 hgt] at h
    exact absurd h (raise_ne_next _ _ _)
  · rw [store_of_le rs2 hle] at h
    cases h
    have hn := n.bytes_le_four
    unfold State.readByte
    rw [Memory.get_stored_other _ (by omega)]

end Machine
end Sys2Proof
end

section
/-! The statements of the family 00_scope.md. -/

open Sys2Proof Sys2Proof.Machine

namespace Sys2Proof.Proofs

/-- Settles O42, by induction on the number of steps: each completed step keeps `SafeAlong`. -/
theorem runsKeepParametersAndSoundness : Obligations.RunsKeepParametersAndSoundness := by
  intro k s t hr hs hrun
  obtain ⟨hcfg, hrunning, hsound, hdraws⟩ := hrun.safeAlong hr hs
  exact ⟨hcfg, hrunning, hsound, hdraws⟩

/-- Settles O44, by the opcode of the fetched word: a STORE word's step stores at its S-format address, and every other
word's step leaves memory alone. -/
theorem onlyStoresChangeMemory : Obligations.OnlyStoresChangeMemory := by
  intro s t w hw h
  obtain ⟨-, w', hw', hcases⟩ := step_next_cases h
  obtain rfl : w' = w := Option.some.inj (hw'.symm.trans hw)
  rcases hcases with ⟨r, -, rfl⟩ | ⟨i, hd, he⟩
  · exact ⟨fun _ a => s.setPc_readByte _ a, fun a _ => s.setPc_readByte _ a⟩
  by_cases hop : opcodeOf w' = 0x23#7
  · obtain ⟨n, hi⟩ := storeOperands_of_decodeStore (decode_of_opcode_store hop ▸ hd)
    rw [exec_of_storeOperands hi] at he
    exact ⟨fun hne => absurd hop hne, fun a ha => readByte_of_store he ha⟩
  · have hkeep := exec_keepsMemory (noStore_decode_of_opcode_ne hop i hd) s
    exact ⟨fun _ => hkeep.readByte he, fun a _ => hkeep.readByte he a⟩

end Sys2Proof.Proofs
end

section
/-! SUPPORT. The registers an instruction names: its destination and its sources, and the word's fields that they come
from (30_encoding.md R71; 10_state.md R25). -/

namespace Sys2Proof

open Machine

/-- The register an instruction writes; `none` for a branch, a store, a fence and a system word. -/
def Instr.destination : Instr → Option RegIdx
  | .lui rd _ | .auipc rd _ | .jal rd _ | .jalr rd _ _ => some rd
  | .lb rd _ _ | .lh rd _ _ | .lw rd _ _ | .lbu rd _ _ | .lhu rd _ _ => some rd
  | .addi rd _ _ | .slti rd _ _ | .sltiu rd _ _ | .xori rd _ _ | .ori rd _ _ | .andi rd _ _ => some rd
  | .slli rd _ _ | .srli rd _ _ | .srai rd _ _ => some rd
  | .add rd _ _ | .sub rd _ _ | .sll rd _ _ | .slt rd _ _ | .sltu rd _ _ => some rd
  | .xor rd _ _ | .srl rd _ _ | .sra rd _ _ | .or rd _ _ | .and rd _ _ => some rd
  | .beq _ _ _ | .bne _ _ _ | .blt _ _ _ | .bge _ _ _ | .bltu _ _ _ | .bgeu _ _ _ => none
  | .sb _ _ _ | .sh _ _ _ | .sw _ _ _ => none
  | .fence _ _ _ _ _ _ | .ecall | .ebreak | .system _ _ _ _ => none

/-- The registers an instruction reads. -/
def Instr.sources : Instr → List RegIdx
  | .jalr _ rs1 _ => [rs1]
  | .lb _ rs1 _ | .lh _ rs1 _ | .lw _ rs1 _ | .lbu _ rs1 _ | .lhu _ rs1 _ => [rs1]
  | .addi _ rs1 _ | .slti _ rs1 _ | .sltiu _ rs1 _ | .xori _ rs1 _ | .ori _ rs1 _ | .andi _ rs1 _ => [rs1]
  | .slli _ rs1 _ | .srli _ rs1 _ | .srai _ rs1 _ => [rs1]
  | .add _ rs1 rs2 | .sub _ rs1 rs2 | .sll _ rs1 rs2 | .slt _ rs1 rs2 | .sltu _ rs1 rs2 => [rs1, rs2]
  | .xor _ rs1 rs2 | .srl _ rs1 rs2 | .sra _ rs1 rs2 | .or _ rs1 rs2 | .and _ rs1 rs2 => [rs1, rs2]
  | .beq rs1 rs2 _ | .bne rs1 rs2 _ | .blt rs1 rs2 _ | .bge rs1 rs2 _ | .bltu rs1 rs2 _ | .bgeu rs1 rs2 _ => [rs1, rs2]
  | .sb rs1 rs2 _ | .sh rs1 rs2 _ | .sw rs1 rs2 _ => [rs1, rs2]
  | .lui _ _ | .auipc _ _ | .jal _ _ => []
  | .fence _ _ _ _ _ _ | .ecall | .ebreak | .system _ _ _ _ => []

/-- No instruction of the classes BRANCH, STORE, MISC-MEM and SYSTEM has a destination. -/
theorem Instr.destination_of_classOpcode {i : Instr}
    (h : Laws.classOpcode i ∈ [0x63#7, 0x23#7, 0x0F#7, 0x73#7]) : i.destination = none := by
  cases i
  case beq | bne | blt | bge | bltu | bgeu | sb | sh | sw | fence | ecall | ebreak | system => rfl
  all_goals exact absurd h (by simp [Laws.classOpcode])

/-! ## A word's decoding takes its registers from the word's fields -/

/-- `i` is of the class that the opcode of `w` says, and its registers stand in the register fields of `w`. -/
structure FieldsFrom (w : Word) (i : Instr) : Prop where
  opcode : Laws.classOpcode i = opcodeOf w
  destination : ∀ rd, i.destination = some rd → rd = rdOf w
  sources : i.sources ⊆ [rs1Of w, rs2Of w]

/-- Where a word `w` with the decoding `r` is an instruction, its class and registers are those of `w`. -/
def DecodesFrom (w : Word) (r : Except Reject Instr) : Prop := ∀ i, r = .ok i → FieldsFrom w i

section
variable {w : Word} {i : Instr} {op : BitVec 7} (hop : opcodeOf w = op) (hc : Laws.classOpcode i = op)
include hop hc

/-! One rule per set of register fields that an instruction uses. -/

theorem DecodesFrom.rd_rs1_rs2 (hd : i.destination = some (rdOf w)) (hs : i.sources = [rs1Of w, rs2Of w]) :
    DecodesFrom w (.ok i) := by
  rintro _ ⟨⟩; exact ⟨hc.trans hop.symm, by simp [hd], by simp [hs]⟩

theorem DecodesFrom.rd_rs1 (hd : i.destination = some (rdOf w)) (hs : i.sources = [rs1Of w]) :
    DecodesFrom w (.ok i) := by
  rintro _ ⟨⟩; exact ⟨hc.trans hop.symm, by simp [hd], by simp [hs]⟩

theorem DecodesFrom.rd (hd : i.destination = some (rdOf w)) (hs : i.sources = []) : DecodesFrom w (.ok i) := by
  rintro _ ⟨⟩; exact ⟨hc.trans hop.symm, by simp [hd], by simp [hs]⟩

theorem DecodesFrom.rs1_rs2 (hd : i.destination = none) (hs : i.sources = [rs1Of w, rs2Of w]) :
    DecodesFrom w (.ok i) := by
  rintro _ ⟨⟩; exact ⟨hc.trans hop.symm, by simp [hd], by simp [hs]⟩

theorem DecodesFrom.noRegister (hd : i.destination = none) (hs : i.sources = []) : DecodesFrom w (.ok i) := by
  rintro _ ⟨⟩; exact ⟨hc.trans hop.symm, by simp [hd], by simp [hs]⟩

end

theorem DecodesFrom.error (w : Word) (r : Reject) : DecodesFrom w (.error r) := nofun

/-- The test of an opcode: what it says is known where it succeeds. -/
theorem DecodesFrom.iteOf {w : Word} {c : Prop} [Decidable c] {a b : Except Reject Instr} (ha : c → DecodesFrom w a)
    (hb : DecodesFrom w b) : DecodesFrom w (if c then a else b) := by
  split
  · exact ha ‹_›
  · exact hb

theorem DecodesFrom.ite {w : Word} {c : Prop} [Decidable c] {a b : Except Reject Instr} (ha : DecodesFrom w a)
    (hb : DecodesFrom w b) : DecodesFrom w (if c then a else b) := .iteOf (fun _ => ha) hb

section
variable {w : Word}

theorem decodesFrom_decodeJalr (hop : opcodeOf w = 0x67#7) : DecodesFrom w (decodeJalr w) :=
  .ite (.rd_rs1 hop rfl rfl rfl) (.error w _)

theorem decodesFrom_decodeBranch (hop : opcodeOf w = 0x63#7) : DecodesFrom w (decodeBranch w) :=
  .ite (.rs1_rs2 hop rfl rfl rfl) <| .ite (.rs1_rs2 hop rfl rfl rfl) <| .ite (.rs1_rs2 hop rfl rfl rfl) <|
    .ite (.rs1_rs2 hop rfl rfl rfl) <| .ite (.rs1_rs2 hop rfl rfl rfl) <| .ite (.rs1_rs2 hop rfl rfl rfl) <| .error w _

theorem decodesFrom_decodeLoad (hop : opcodeOf w = 0x03#7) : DecodesFrom w (decodeLoad w) :=
  .ite (.rd_rs1 hop rfl rfl rfl) <| .ite (.rd_rs1 hop rfl rfl rfl) <| .ite (.rd_rs1 hop rfl rfl rfl) <|
    .ite (.rd_rs1 hop rfl rfl rfl) <| .ite (.rd_rs1 hop rfl rfl rfl) <| .error w _

theorem decodesFrom_decodeStore (hop : opcodeOf w = 0x23#7) : DecodesFrom w (decodeStore w) :=
  .ite (.rs1_rs2 hop rfl rfl rfl) <| .ite (.rs1_rs2 hop rfl rfl rfl) <| .ite (.rs1_rs2 hop rfl rfl rfl) <| .error w _

theorem decodesFrom_decodeOpImm (hop : opcodeOf w = 0x13#7) : DecodesFrom w (decodeOpImm w) :=
  .ite (.rd_rs1 hop rfl rfl rfl) <| .ite (.rd_rs1 hop rfl rfl rfl) <| .ite (.rd_rs1 hop rfl rfl rfl) <|
    .ite (.rd_rs1 hop rfl rfl rfl) <| .ite (.rd_rs1 hop rfl rfl rfl) <| .ite (.rd_rs1 hop rfl rfl rfl) <|
    .ite (.ite (.rd_rs1 hop rfl rfl rfl) (.error w _)) <| .ite (.rd_rs1 hop rfl rfl rfl) <|
    .ite (.rd_rs1 hop rfl rfl rfl) <| .error w _

theorem decodesFrom_decodeOp (hop : opcodeOf w = 0x33#7) : DecodesFrom w (decodeOp w) :=
  .ite (.ite (.rd_rs1_rs2 hop rfl rfl rfl) <| .ite (.rd_rs1_rs2 hop rfl rfl rfl) <|
      .ite (.rd_rs1_rs2 hop rfl rfl rfl) <| .ite (.rd_rs1_rs2 hop rfl rfl rfl) <|
      .ite (.rd_rs1_rs2 hop rfl rfl rfl) <| .ite (.rd_rs1_rs2 hop rfl rfl rfl) <|
      .ite (.rd_rs1_rs2 hop rfl rfl rfl) <| .rd_rs1_rs2 hop rfl rfl rfl) <|
    .ite (.ite (.rd_rs1_rs2 hop rfl rfl rfl) <| .ite (.rd_rs1_rs2 hop rfl rfl rfl) <| .error w _) <| .error w _

theorem decodesFrom_decodeFence (hop : opcodeOf w = 0x0F#7) : DecodesFrom w (decodeFence w) :=
  .noRegister hop rfl rfl rfl

theorem decodesFrom_decodeSystem (hop : opcodeOf w = 0x73#7) : DecodesFrom w (decodeSystem w) :=
  .ite (.noRegister hop rfl rfl rfl) <| .ite (.noRegister hop rfl rfl rfl) <| .noRegister hop rfl rfl rfl

end

/-- What a word decodes to is of the class of its opcode, writes at most the register of its rd field, and reads at most
those of its rs1 and rs2 fields. -/
theorem fieldsFrom_of_decode {w : Word} {i : Instr} (hd : decode w = .ok i) : FieldsFrom w i := by
  have h : DecodesFrom w (decode w) :=
    .iteOf (fun hop => .rd hop rfl rfl rfl) <| .iteOf (fun hop => .rd hop rfl rfl rfl) <|
      .iteOf (fun hop => .rd hop rfl rfl rfl) <| .iteOf decodesFrom_decodeJalr <| .iteOf decodesFrom_decodeBranch <|
      .iteOf decodesFrom_decodeLoad <| .iteOf decodesFrom_decodeStore <| .iteOf decodesFrom_decodeOpImm <|
      .iteOf decodesFrom_decodeOp <| .iteOf decodesFrom_decodeFence <| .iteOf decodesFrom_decodeSystem <| .error w _
  exact h i hd

end Sys2Proof
end

section
/-! SUPPORT. What a meaning writes: no register but its instruction's destination (10_state.md R25). -/

namespace Sys2Proof.Machine

/-- Where `r` is a next state, its registers are those of `s`, but for the one in `d` where there is one. -/
def WritesOnly (d : Option RegIdx) (s : State) (r : Result) : Prop :=
  ∀ t, r = .next t → (d = none → t.regs = s.regs) ∧ ∀ q, d ≠ some q → t.reg q = s.reg q

theorem WritesOnly.of_setPc (d : Option RegIdx) (s : State) (a : Word) : WritesOnly d s (.next (s.setPc a)) := by
  rintro t ⟨⟩; exact ⟨fun _ => rfl, fun _ _ => rfl⟩

theorem WritesOnly.of_setPc_writeReg (rd : RegIdx) (s : State) (v a : Word) :
    WritesOnly (some rd) s (.next ((s.writeReg rd v).setPc a)) := by
  rintro t ⟨⟩; exact ⟨nofun, fun q hq => State.reg_writeReg_other v fun e => hq (congrArg some e.symm)⟩

theorem WritesOnly.of_raise (d : Option RegIdx) (s : State) (f : FaultRecord) (u : State) :
    WritesOnly d s (raise f u) :=
  fun t h => absurd h (raise_ne_next f u t)

theorem WritesOnly.of_writeBack (rd : RegIdx) (v : Word) (s : State) : WritesOnly (some rd) s (writeBack rd v s) := by
  rw [writeBack_eq]; exact .of_setPc_writeReg rd s v _

theorem WritesOnly.of_load (n : Width) (extend : Word → Word) (rd rs1 : RegIdx) (imm : BitVec 12) (s : State) :
    WritesOnly (some rd) s (load n extend rd rs1 imm s) := by
  rcases Nat.lt_or_ge s.cfg.memSize ((loadAddr s rs1 imm).toNat + n.bytes) with h | h
  · rw [load_of_gt extend rd h]; exact .of_raise _ s _ s
  · rw [load_of_le extend rd h]; exact .of_writeBack rd _ s

theorem WritesOnly.of_store (d : Option RegIdx) (n : Width) (rs1 rs2 : RegIdx) (imm : BitVec 12) (s : State) :
    WritesOnly d s (store n rs1 rs2 imm s) := by
  rcases Nat.lt_or_ge s.cfg.memSize ((storeAddr s rs1 imm).toNat + n.bytes) with h | h
  · rw [store_of_gt rs2 h]; exact .of_raise d s _ _
  · rw [store_of_le rs2 h]; rintro t ⟨⟩; exact ⟨fun _ => rfl, fun _ _ => rfl⟩

theorem exec_writesOnly (i : Instr) (s : State) : WritesOnly i.destination s (exec i s) := by
  cases i
  case jal rd _ => exact .of_setPc_writeReg rd s _ _
  case jalr rd _ _ => exact .of_setPc_writeReg rd s _ _
  case beq | bne | blt | bge | bltu | bgeu => exact .of_setPc _ s _
  case fence | ecall | ebreak | system => exact .of_setPc _ s _
  case lb | lh | lw | lbu | lhu => exact .of_load _ _ _ _ _ s
  case sb | sh | sw => exact .of_store _ _ _ _ _ s
  all_goals exact .of_writeBack _ _ s

end Sys2Proof.Machine
end

section
/-! SUPPORT. What a meaning reads: two states that differ in registers alone, and agree on an instruction's sources, run
it alike (10_state.md R25). -/

namespace Sys2Proof.Machine

/-- The state with other registers. -/
def State.withRegs (s : State) (g : Vector Word 32) : State := { s with regs := g }

@[simp] theorem State.withRegs_cfg (s : State) (g : Vector Word 32) : (s.withRegs g).cfg = s.cfg := rfl
@[simp] theorem State.withRegs_pc (s : State) (g : Vector Word 32) : (s.withRegs g).pc = s.pc := rfl
@[simp] theorem State.withRegs_mem (s : State) (g : Vector Word 32) : (s.withRegs g).mem = s.mem := rfl
@[simp] theorem State.withRegs_status (s : State) (g : Vector Word 32) : (s.withRegs g).status = s.status := rfl
@[simp] theorem State.withRegs_draws (s : State) (g : Vector Word 32) : (s.withRegs g).draws = s.draws := rfl

/-- A state that equals `s` in every field but the registers is `s` with its registers. -/
theorem State.eq_withRegs {s t : State} (hcfg : s.cfg = t.cfg) (hpc : s.pc = t.pc) (hmem : s.mem = t.mem)
    (hstatus : s.status = t.status) (hdraws : s.draws = t.draws) : t = s.withRegs t.regs := by
  cases s; cases t; simp_all [State.withRegs]

theorem fetch_withRegs (s : State) (g : Vector Word 32) : fetch (s.withRegs g) = fetch s :=
  State.memRead_congr rfl rfl _ _

/-- The two results, of `s₁` and of `s₂`, are next states with the same pc and memory and each register equal in both or
unchanged in each, or the same fault with the same memory left. -/
inductive StepsAlike (s₁ s₂ : State) : Result → Result → Prop where
  | next {t₁ t₂ : State} (hpc : t₁.pc = t₂.pc) (hmem : t₁.mem = t₂.mem)
      (hreg : ∀ r, t₁.reg r = t₂.reg r ∨ (t₁.reg r = s₁.reg r ∧ t₂.reg r = s₂.reg r)) :
      StepsAlike s₁ s₂ (.next t₁) (.next t₂)
  | raised (f : FaultRecord) {t₁ t₂ : State} (hmem : t₁.mem = t₂.mem) : StepsAlike s₁ s₂ (raise f t₁) (raise f t₂)

/-- The two ways in which results are alike, with the states they leave named. -/
theorem StepsAlike.cases {s₁ s₂ : State} {r₁ r₂ : Result} (h : StepsAlike s₁ s₂ r₁ r₂) :
    (∃ t₁ t₂, r₁ = .next t₁ ∧ r₂ = .next t₂ ∧ t₁.pc = t₂.pc ∧ t₁.mem = t₂.mem ∧
      ∀ r, t₁.reg r = t₂.reg r ∨ (t₁.reg r = s₁.reg r ∧ t₂.reg r = s₂.reg r)) ∨
    (∃ f t₁ t₂, r₁ = .fault (.raised f t₁) ∧ r₂ = .fault (.raised f t₂) ∧ t₁.mem = t₂.mem) := by
  cases h with
  | next hpc hmem hreg => exact .inl ⟨_, _, rfl, rfl, hpc, hmem, hreg⟩
  | raised f hmem => exact .inr ⟨f, _, _, rfl, rfl, hmem⟩

section
variable {s : State} {g : Vector Word 32}

/-! ## The shared operations -/

theorem StepsAlike.of_setPc {a b : Word} (h : a = b) :
    StepsAlike s (s.withRegs g) (.next (s.setPc a)) (.next ((s.withRegs g).setPc b)) :=
  .next h rfl fun _ => .inr ⟨rfl, rfl⟩

/-- A register that both write with the same value is equal in both, a hardwired index 0 too; every other is unchanged. -/
theorem StepsAlike.of_setPc_writeReg (rd : RegIdx) {v v' a b : Word} (hv : v = v') (h : a = b) :
    StepsAlike s (s.withRegs g) (.next ((s.writeReg rd v).setPc a))
      (.next (((s.withRegs g).writeReg rd v').setPc b)) := by
  subst v'
  refine .next h (by simp) fun r => ?_
  by_cases hr : r = rd
  · subst r
    left
    by_cases hw : s.cfg.x0Hardwired = true ∧ rd = 0
    · simp [State.writeReg_discarded, State.reg_hardwired, hw]
    · exact (State.reg_writeReg_same v hw).trans (State.reg_writeReg_same (s := s.withRegs g) v hw).symm
  · right
    simp [State.reg_writeReg_other _ hr]

theorem StepsAlike.of_writeBack (rd : RegIdx) {v v' : Word} (hv : v = v') :
    StepsAlike s (s.withRegs g) (writeBack rd v s) (writeBack rd v' (s.withRegs g)) := by
  rw [writeBack_eq, writeBack_eq]; exact .of_setPc_writeReg rd hv rfl

theorem StepsAlike.of_branch {c d : Bool} (off : BitVec 13) (h : c = d) :
    StepsAlike s (s.withRegs g) (branch c off s) (branch d off (s.withRegs g)) :=
  .of_setPc (h ▸ rfl)

theorem StepsAlike.of_load (n : Width) (extend : Word → Word) (rd : RegIdx) {rs1 : RegIdx} (imm : BitVec 12)
    (h : s.reg rs1 = (s.withRegs g).reg rs1) :
    StepsAlike s (s.withRegs g) (load n extend rd rs1 imm s) (load n extend rd rs1 imm (s.withRegs g)) := by
  have haddr : loadAddr (s.withRegs g) rs1 imm = loadAddr s rs1 imm := by simp [loadAddr, h]
  rcases Nat.lt_or_ge s.cfg.memSize ((loadAddr s rs1 imm).toNat + n.bytes) with hgt | hle
  · rw [load_of_gt extend rd hgt, load_of_gt extend rd (by rwa [haddr]), haddr]
    exact .raised _ rfl
  · rw [load_of_le extend rd hle, load_of_le extend rd (by rwa [haddr]), haddr]
    exact .of_writeBack rd rfl

theorem StepsAlike.of_store (n : Width) {rs1 rs2 : RegIdx} (imm : BitVec 12)
    (h1 : s.reg rs1 = (s.withRegs g).reg rs1) (h2 : s.reg rs2 = (s.withRegs g).reg rs2) :
    StepsAlike s (s.withRegs g) (store n rs1 rs2 imm s) (store n rs1 rs2 imm (s.withRegs g)) := by
  have haddr : storeAddr (s.withRegs g) rs1 imm = storeAddr s rs1 imm := by simp [storeAddr, h1]
  rcases Nat.lt_or_ge s.cfg.memSize ((storeAddr s rs1 imm).toNat + n.bytes) with hgt | hle
  · rw [store_of_gt rs2 hgt, store_of_gt rs2 (by rwa [haddr]), haddr, ← h2]
    exact .raised _ (by simp [State.partialWrite_eq])
  · rw [store_of_le rs2 hle, store_of_le rs2 (by rwa [haddr]), haddr, ← h2]
    exact .next rfl rfl fun _ => .inr ⟨rfl, rfl⟩

/-- JALR's target depends on its base register alone, whichever of the two is the state it is read in (R133). -/
theorem StepsAlike.of_jalr (rd : RegIdx) {rs1 : RegIdx} (imm : BitVec 12) (h : s.reg rs1 = (s.withRegs g).reg rs1) :
    StepsAlike s (s.withRegs g) (execJalr rd rs1 imm s) (execJalr rd rs1 imm (s.withRegs g)) := by
  refine .of_setPc_writeReg rd rfl ?_
  rw [jalrTarget_writeReg, jalrTarget_writeReg]
  simp [jalrTarget, h]

/-! ## Instructions and steps -/

/-- An instruction reads no register but its sources. -/
theorem exec_stepsAlike (i : Instr) (h : ∀ r ∈ i.sources, s.reg r = (s.withRegs g).reg r) :
    StepsAlike s (s.withRegs g) (exec i s) (exec i (s.withRegs g)) := by
  cases i
  all_goals simp only [Instr.sources, List.forall_mem_cons, List.not_mem_nil, IsEmpty.forall_iff, implies_true,
    and_true] at h
  case lui | auipc => exact .of_writeBack _ rfl
  case jal rd _ => exact .of_setPc_writeReg rd rfl rfl
  case jalr rd rs1 imm => exact .of_jalr rd imm h
  case beq | bne | blt | bge | bltu | bgeu => exact .of_branch _ (by simp only [h])
  case lb | lh | lw | lbu | lhu => exact .of_load _ _ _ _ h
  case sb | sh | sw =>
    obtain ⟨hbase, hvalue⟩ := h
    exact .of_store _ _ hbase hvalue
  case fence | ecall | ebreak | system => exact .of_setPc rfl
  all_goals exact .of_writeBack _ (by simp only [h])

theorem execUnrecognized_stepsAlike (w : Word) :
    StepsAlike s (s.withRegs g) (execUnrecognized w s) (execUnrecognized w (s.withRegs g)) := by
  unfold execUnrecognized
  rw [State.withRegs_cfg]
  split
  · exact .of_setPc rfl
  · exact .raised _ rfl

/-- A step of a running block reads no register but those in the rs1 and rs2 fields of its word. -/
theorem step_stepsAlike {w : Word} (hr : s.status = .running) (hf : fetch s = some w)
    (h1 : s.reg (rs1Of w) = (s.withRegs g).reg (rs1Of w)) (h2 : s.reg (rs2Of w) = (s.withRegs g).reg (rs2Of w)) :
    StepsAlike s (s.withRegs g) (step s) (step (s.withRegs g)) := by
  have hf' : fetch (s.withRegs g) = some w := (fetch_withRegs s g).trans hf
  cases hd : decode w with
  | error r =>
    rw [step_of_unrecognized hr hf hd, step_of_unrecognized (s := s.withRegs g) hr hf' hd]
    exact execUnrecognized_stepsAlike w
  | ok i =>
    rw [step_of_decode hr hf hd, step_of_decode (s := s.withRegs g) hr hf' hd]
    refine exec_stepsAlike i fun r hmem => ?_
    have hfield : r = rs1Of w ∨ r = rs2Of w := by simpa using (fieldsFrom_of_decode hd).sources hmem
    rcases hfield with rfl | rfl
    · exact h1
    · exact h2

end

end Sys2Proof.Machine
end

section
/-! The statements of the family 10_state.md. -/

open Sys2Proof Sys2Proof.Machine

namespace Sys2Proof.Proofs

/-- Settles O27: the register port's laws, on each side of the parameter. -/
theorem registerZeroFollowsItsParameter : Obligations.RegisterZeroFollowsItsParameter := by
  intro s i j v
  refine ⟨fun hw => ⟨State.reg_hardwired ⟨hw, rfl⟩, State.writeReg_discarded v ⟨hw, rfl⟩⟩, fun h => ?_,
    State.reg_writeReg_other v, BitVec.ofInt_toInt, by simp, by simp, by simp, by simp, by simp⟩
  have hkept : ¬(s.cfg.x0Hardwired = true ∧ i = 0) := by
    rintro ⟨hw, hi⟩
    rcases h with h | h
    · exact Bool.false_ne_true (h.symm.trans hw)
    · exact h hi
  exact ⟨State.reg_eq_get hkept, State.reg_writeReg_same v hkept⟩

/-- Settles O43: the decoded instruction's destination is the word's rd field, and its class has one or not. -/
theorem aStepWritesAtMostItsDestination : Obligations.AStepWritesAtMostItsDestination := by
  intro s t w hw h
  obtain ⟨-, w', hw', hcases⟩ := step_next_cases h
  obtain rfl : w' = w := Option.some.inj (hw'.symm.trans hw)
  rcases hcases with ⟨r, -, rfl⟩ | ⟨i, hd, he⟩
  · exact ⟨fun q _ => s.setPc_reg _ q, fun _ => s.setPc_regs _⟩
  have hfields := fieldsFrom_of_decode hd
  obtain ⟨hnone, hother⟩ := exec_writesOnly i s t he
  refine ⟨fun q hq => hother q fun hdest => hq (hfields.destination q hdest), fun hclass => hnone ?_⟩
  rcases hclass with hop | ⟨e, herr⟩
  · exact Instr.destination_of_classOpcode (hfields.opcode ▸ hop)
  · cases herr.symm.trans hd

/-- Settles O45: the two blocks differ in registers alone, and agree on the sources of the word that both fetch. -/
theorem aStepReadsOnlyItsSources : Obligations.AStepReadsOnlyItsSources := by
  intro s₁ s₂ w hr₁ hr₂ hcfg hpc hmem hdraws hw h1 h2
  have hs₂ : s₂ = s₁.withRegs s₂.regs := State.eq_withRegs hcfg hpc hmem (hr₁.trans hr₂.symm) hdraws
  rw [hs₂] at h1 h2 ⊢
  exact (step_stepsAlike hr₁ hw h1 h2).cases

/-- Settles O48: the construction computes to `State.reset`; its registers are the constant vector and no byte of its
memory is listed. -/
theorem resetIsADefaultConstruction : Obligations.ResetIsADefaultConstruction := by
  refine ⟨rfl, fun i => ?_, fun a ha => State.readByte_of_lt (s := State.reset) ha⟩
  rw [State.reg_eq_get (by simp [Config.default])]
  exact Vector.getElem_replicate _

end Sys2Proof.Proofs
end

section
/-! SUPPORT. What a step that raises leaves: the state as it was but for the status, and but for the in-range bytes of a
failed store (60_exceptions.md R284, R285; 20_memory.md R44). -/

namespace Sys2Proof.Machine

/-- `t` is what the raise of `f` leaves of `s`: nothing but the status has changed, or `f` is a store out of range and
its in-range bytes are drawn. -/
inductive LeftByRaise (s : State) : FaultRecord → State → Prop where
  | unchanged (f : FaultRecord) : LeftByRaise s f { s with status := .faulted f }
  | drawn (addr v : Word) (n : Width) (h : s.cfg.memSize < addr.toNat + n.bytes) :
      LeftByRaise s (.outOfRange .store addr n)
        { s.partialWrite addr.toNat n v with status := .faulted (.outOfRange .store addr n) }

theorem LeftByRaise.of_raise {s t : State} {f g : FaultRecord} (h : raise f s = .fault (.raised g t)) :
    LeftByRaise s g t := by
  cases h; exact .unchanged f

/-- An unrecognized word that raises changes nothing but the status (R282). -/
theorem LeftByRaise.of_execUnrecognized {s t : State} {w : Word} {f : FaultRecord}
    (h : execUnrecognized w s = .fault (.raised f t)) : LeftByRaise s f t := by
  unfold execUnrecognized at h
  split at h
  · cases h
  · exact .of_raise h

/-- Of the five things a meaning can do, two raise. -/
theorem Effect.leftByRaise {s t : State} {r : Result} {f : FaultRecord} (he : Effect s r)
    (h : r = .fault (.raised f t)) : LeftByRaise s f t := by
  cases he with
  | wrote | moved | stored => cases h
  | loadFault addr n _ => exact .of_raise h
  | storeFault addr v n hgt => cases h; exact .drawn addr v n hgt

theorem step_leftByRaise {s t : State} {f : FaultRecord} (h : step s = .fault (.raised f t)) : LeftByRaise s f t := by
  rcases step_cases s with ⟨g, -, he⟩ | ⟨-, -, he⟩ | ⟨-, w, r, -, -, he⟩ | ⟨-, w, i, -, -, he⟩ <;> rw [he] at h
  · cases h
  · exact .of_raise h
  · exact .of_execUnrecognized h
  · exact (exec_effect i s).leftByRaise h

/-- A raise leaves a sound state: a failed store's bytes are drawn below the capacity. -/
theorem LeftByRaise.sound {s t : State} {f : FaultRecord} (h : LeftByRaise s f t) (hs : s.Sound) : t.Sound := by
  cases h with
  | unchanged => exact hs.congr rfl rfl
  | drawn addr v n _ => exact (hs.partialWrite addr.toNat n v).congr rfl rfl

end Sys2Proof.Machine
end

section
/-! SUPPORT. Memory byte by byte: a word is its bytes, and which byte a read gives and a write leaves
(20_memory.md R41, R43, R44). -/

namespace Sys2Proof.Machine

/-! ## The bytes of a word -/

theorem getLsbD_byteOf (v : Word) (k : Nat) {i : Nat} (hi : i < 8) :
    (byteOf v k).getLsbD i = v.getLsbD (8 * k + i) := by
  simp [byteOf, hi]

/-- Words with the same bytes are the same word. -/
theorem eq_of_byteOf_eq {v w : Word} (h : ∀ k, byteOf v k = byteOf w k) : v = w := by
  refine BitVec.eq_of_getLsbD_eq fun i _ => ?_
  have hi : i % 8 < 8 := Nat.mod_lt i (by decide)
  rw [← Nat.div_add_mod i 8, ← getLsbD_byteOf v _ hi, ← getLsbD_byteOf w _ hi, h]

/-- Bytes from where the value ends on are zeros. -/
theorem byteOf_eq_zero {v : Word} {c k : Nat} (hv : v.toNat < 2 ^ (8 * c)) (hk : c ≤ k) : byteOf v k = 0 := by
  refine BitVec.eq_of_getLsbD_eq fun i hi => ?_
  have hlt : v.toNat < 2 ^ (8 * k + i) := hv.trans_le (Nat.pow_le_pow_right (by decide) (by omega))
  rw [getLsbD_byteOf _ _ hi, ← BitVec.testBit_toNat, Nat.testBit_lt_two_pow hlt]
  simp

/-- The part of `v` that is `c` bytes long from its byte `d` on. -/
def wordSlice (v : Word) (d c : Nat) : Word := BitVec.ofNat 32 (v.toNat / 2 ^ (8 * d) % 2 ^ (8 * c))

theorem wordSlice_lt (v : Word) (d c : Nat) : (wordSlice v d c).toNat < 2 ^ (8 * c) :=
  (Nat.mod_le _ _).trans_lt (Nat.mod_lt _ (by positivity))

theorem byteOf_wordSlice (v : Word) (d : Nat) {c k : Nat} (h : k < c) :
    byteOf (wordSlice v d c) k = byteOf v (d + k) := by
  refine BitVec.eq_of_getLsbD_eq fun i hi => ?_
  rw [getLsbD_byteOf _ _ hi, getLsbD_byteOf _ _ hi, wordSlice, BitVec.getLsbD_ofNat, Nat.testBit_mod_two_pow,
    Nat.testBit_div_two_pow, BitVec.testBit_toNat, show 8 * k + i + 8 * d = 8 * (d + k) + i by omega]
  by_cases hlt : 8 * k + i < 32
  · simp [hlt]; omega
  · simp [hlt, BitVec.getLsbD_of_ge v (8 * (d + k) + i) (by omega)]

/-! ## Reads -/

theorem Memory.readValue_lt (m : Memory) (a : Nat) (n : Width) : (m.readValue a n).toNat < 2 ^ (8 * n.bytes) := by
  cases n with
  | byte => exact (BitVec.toNat_setWidth_of_le (by decide)).trans_lt (BitVec.isLt _)
  | half => exact (BitVec.toNat_setWidth_of_le (by decide)).trans_lt (BitVec.isLt _)
  | word => exact BitVec.isLt _

/-- Each byte of what a read gives is the byte of memory there: little-endian (R41, R46). -/
theorem byteOf_readValue (m : Memory) (a : Nat) {n : Width} {k : Nat} (h : k < n.bytes) :
    byteOf (m.readValue a n) k = m.get (a + k) := by
  refine BitVec.eq_of_getLsbD_eq fun i hi => ?_
  rw [getLsbD_byteOf _ _ hi]
  -- For each width and each byte of it: which of the appended bytes has bit `8 * k + i`.
  cases n
  all_goals
    simp only [Width.bytes] at h
    simp only [Memory.readValue, BitVec.getLsbD_setWidth, BitVec.getLsbD_append]
    interval_cases k <;> grind

/-- A read of `n` bytes gives the word that has the `n` bytes of memory there, and zeros above. -/
theorem Memory.readValue_eq_iff {m : Memory} {a : Nat} {n : Width} {v : Word} (hv : v.toNat < 2 ^ (8 * n.bytes)) :
    m.readValue a n = v ↔ ∀ k, k < n.bytes → m.get (a + k) = byteOf v k := by
  constructor
  · rintro rfl k hk
    exact (byteOf_readValue m a hk).symm
  · intro h
    refine eq_of_byteOf_eq fun k => ?_
    rcases Nat.lt_or_ge k n.bytes with hk | hk
    · rw [byteOf_readValue m a hk, h k hk]
    · rw [byteOf_eq_zero (m.readValue_lt a n) hk, byteOf_eq_zero hv hk]

/-- An in-range read gives at each of its bytes the byte of memory there. -/
theorem State.readByte_eq_byteOf_readValue {s : State} {a k : Nat} {n : Width} (h : a + n.bytes ≤ s.cfg.memSize)
    (hk : k < n.bytes) : s.readByte (a + k) = some (byteOf (s.mem.readValue a n) k) := by
  rw [State.readByte_of_lt (by omega), byteOf_readValue _ _ hk]

/-! ## Writes, those that complete and those that fail -/

/-- A stored byte reads back, named by its address. -/
theorem Memory.get_stored_of_mem {m : Memory} {a b c : Nat} (v : Word) (hm : m.wf = true) (hge : a ≤ b)
    (hlt : b < a + c) : (m.stored a v c).get b = byteOf v (b - a) := by
  obtain ⟨j, rfl⟩ := Nat.exists_eq_add_of_le hge
  rw [Nat.add_sub_cancel_left, Memory.get_stored v hm (by omega)]

section
variable {s : State} {a : Nat} {n : Width} (v : Word)

/-- A stored byte reads back. -/
theorem State.readByte_stored {k : Nat} (hs : s.Sound) (h : a + n.bytes ≤ s.cfg.memSize) (hk : k < n.bytes) :
    ({ s with mem := s.mem.stored a v n.bytes } : State).readByte (a + k) = some (byteOf v k) := by
  obtain ⟨-, hwf, -⟩ := hs
  exact State.readByte_eq_some.mpr ⟨by simp; omega, Memory.get_stored v hwf hk⟩

/-- A byte outside those stored reads as before. -/
theorem State.readByte_stored_other {b : Nat} (hb : b < a ∨ a + n.bytes ≤ b) :
    ({ s with mem := s.mem.stored a v n.bytes } : State).readByte b = s.readByte b := by
  simp only [State.readByte, Memory.get_stored_other v hb]

/-- A byte of a failed write reads as before or as the byte written, whatever is drawn (R44). -/
theorem State.readByte_partialWrite {k : Nat} (hs : s.Sound) (hk : a + k < s.cfg.memSize) :
    (s.partialWrite a n v).readByte (a + k) = s.readByte (a + k) ∨
      (s.partialWrite a n v).readByte (a + k) = some (byteOf v k) := by
  obtain ⟨-, hwf, -⟩ := hs
  rw [State.partialWrite_eq, State.readByte_of_lt (s := s) hk]
  rcases Memory.get_drawn (size := s.cfg.memSize) (draw := s.draws) (a := a) (j := k) (v := v) (k := n.bytes) hwf
    with hold | ⟨-, -, hnew⟩
  · exact .inl (State.readByte_eq_some.mpr ⟨hk, hold⟩)
  · exact .inr (State.readByte_eq_some.mpr ⟨hk, hnew⟩)

/-- A byte outside a failed write reads as before. -/
theorem State.readByte_partialWrite_other {b : Nat} (hb : b < a ∨ a + n.bytes ≤ b) :
    (s.partialWrite a n v).readByte b = s.readByte b := by
  rw [State.partialWrite_eq]
  simp only [State.readByte, Memory.get_drawn_other hb]

end

end Sys2Proof.Machine
end

section
/-! The statements of the family 20_memory.md. -/

open Sys2Proof Sys2Proof.Machine

namespace Sys2Proof.Proofs

/-- Settles O40: a completed step is safe along the run, and a raise leaves at most a failed store's drawn bytes. -/
theorem stepKeepsTheStateSound : Obligations.StepKeepsTheStateSound :=
  fun _ hs => ⟨fun _ h => (step_safeAlong h hs).sound, fun _ _ h => (step_leftByRaise h).sound hs⟩

/-- Settles O28: what an in-range read gives, byte by byte. -/
theorem readsAreLittleEndianAndOnlyRangeChecked : Obligations.ReadsAreLittleEndianAndOnlyRangeChecked := by
  intro s a n
  simp only [State.memRead_eq_some]
  refine ⟨by simp, ?_⟩
  rintro _ ⟨hle, rfl⟩
  exact ⟨s.mem.readValue_lt a n, fun k hk => State.readByte_eq_byteOf_readValue hle hk⟩

/-- Settles O29: a completed write changes memory alone, and memory in the bytes stored alone. -/
theorem writesAreLittleEndianAndOnlyRangeChecked : Obligations.WritesAreLittleEndianAndOnlyRangeChecked := by
  intro s a n v hs
  simp only [State.memWrite_eq_some]
  refine ⟨by simp, ?_⟩
  rintro _ ⟨hle, rfl⟩
  exact ⟨fun k hk => State.readByte_stored v hs hle hk, fun b hb => State.readByte_stored_other v hb,
    rfl, rfl, rfl, rfl, rfl⟩

/-- Settles O30: a failed write leaves its bytes as drawn, and draws none where its first byte is out of range. -/
theorem failedWritesLeaveOldOrNewBytes : Obligations.FailedWritesLeaveOldOrNewBytes := by
  intro s a n v hs _
  have hframe := s.partialWrite_eq a n v
  refine ⟨⟨by rw [hframe], by rw [hframe], by rw [hframe], fun k _ hk => State.readByte_partialWrite v hs hk,
    fun b hb => State.readByte_partialWrite_other v hb⟩, by rw [hframe], fun hge => ?_⟩
  rw [hframe]
  exact Memory.drawn_of_ge hge

/-- Settles O31: the bytes of memory that the read gives are those of the part of the value. -/
theorem readsSeeTheBytesWritten : Obligations.ReadsSeeTheBytesWritten := by
  rintro s t a d n m v ⟨-, hwf, -⟩ hw hd
  obtain ⟨hle, rfl⟩ := State.memWrite_eq_some.mp hw
  refine State.memRead_eq_some.mpr ⟨by simp; omega, (Memory.readValue_eq_iff (wordSlice_lt v d _)).mpr fun k hk => ?_⟩
  rw [byteOf_wordSlice v d hk, Nat.add_assoc, Memory.get_stored v hwf (by omega)]

/-- Settles O46: the fetch reads the memory that the store left, and each byte of its word was stored or was not. -/
theorem aFetchSeesTheStoreBeforeIt : Obligations.AFetchSeesTheStoreBeforeIt := by
  rintro s rs1 rs2 imm i n a p ⟨-, hwf, -⟩ hi rfl rfl hle hfetch
  have hoperands : i.storeOperands = some (n, rs1, rs2, imm) := by
    simp only [List.mem_cons, List.not_mem_nil, or_false, Prod.mk.injEq] at hi
    rcases hi with ⟨rfl, rfl⟩ | ⟨rfl, rfl⟩ | ⟨rfl, rfl⟩ <;> rfl
  refine ⟨_, _, (exec_of_storeOperands hoperands s).trans (store_of_le rs2 hle),
    State.memRead_of_le (n := .word) hfetch, fun k hk => ⟨fun ⟨hge, hlt⟩ => ?_, fun hout => ?_⟩⟩
  · exact (byteOf_readValue _ _ (n := .word) hk).trans (Memory.get_stored_of_mem _ hwf hge hlt)
  · exact State.readByte_eq_some.mpr ⟨by omega,
      (Memory.get_stored_other _ hout).symm.trans (byteOf_readValue _ _ (n := .word) hk).symm⟩

end Sys2Proof.Proofs
end

section
/-! SUPPORT. The decoder on the word of an instruction: one equation per opcode class, and the round trip from the
instruction (30_encoding.md R71, R82). -/

namespace Sys2Proof

/-! ## The decoder by class (30_encoding.md R81, R82): STORE's equation is `decode_of_opcode_store` -/

section
variable {w : Word}

theorem decode_of_opcode_lui (hop : opcodeOf w = 0x37#7) : decode w = .ok (.lui (rdOf w) (immUOf w)) := by
  simp [decode, hop]

theorem decode_of_opcode_auipc (hop : opcodeOf w = 0x17#7) : decode w = .ok (.auipc (rdOf w) (immUOf w)) := by
  simp [decode, hop]

theorem decode_of_opcode_jal (hop : opcodeOf w = 0x6F#7) : decode w = .ok (.jal (rdOf w) (immJOf w)) := by
  simp [decode, hop]

theorem decode_of_opcode_jalr (hop : opcodeOf w = 0x67#7) : decode w = decodeJalr w := by simp [decode, hop]

theorem decode_of_opcode_branch (hop : opcodeOf w = 0x63#7) : decode w = decodeBranch w := by simp [decode, hop]

theorem decode_of_opcode_load (hop : opcodeOf w = 0x03#7) : decode w = decodeLoad w := by simp [decode, hop]

theorem decode_of_opcode_opImm (hop : opcodeOf w = 0x13#7) : decode w = decodeOpImm w := by simp [decode, hop]

theorem decode_of_opcode_op (hop : opcodeOf w = 0x33#7) : decode w = decodeOp w := by simp [decode, hop]

theorem decode_of_opcode_fence (hop : opcodeOf w = 0x0F#7) : decode w = decodeFence w := by simp [decode, hop]

theorem decode_of_opcode_system (hop : opcodeOf w = 0x73#7) : decode w = decodeSystem w := by simp [decode, hop]

end

/-! ## FENCE and SYSTEM words -/

/-- The fence fields come back from the I-immediate that they make up (48_misc_mem_system.md R260). -/
theorem decodeFence_encodeI (fm pred succ : BitVec 4) (rs1 : RegIdx) (f3 : BitVec 3) (rd : RegIdx) (op : BitVec 7) :
    decodeFence (encodeI (fm ++ pred ++ succ) rs1 f3 rd op) = .ok (.fence fm pred succ rs1 f3 rd) := by
  have hfm := extractLsb'_encodeI rs1 f3 rd op (fm ++ pred ++ succ) 8 4 (by omega)
  have hpred := extractLsb'_encodeI rs1 f3 rd op (fm ++ pred ++ succ) 4 4 (by omega)
  have hsucc := extractLsb'_encodeI rs1 f3 rd op (fm ++ pred ++ succ) 0 4 (by omega)
  have hparts : (fm ++ pred ++ succ).extractLsb' 8 4 = fm ∧ (fm ++ pred ++ succ).extractLsb' 4 4 = pred ∧
      (fm ++ pred ++ succ).extractLsb' 0 4 = succ := by
    refine ⟨?_, ?_, BitVec.extractLsb'_append_eq_right⟩
    · rw [BitVec.extractLsb'_append_eq_of_le (by decide)]; exact BitVec.extractLsb'_append_eq_left
    · rw [BitVec.extractLsb'_append_eq_of_le (by decide)]; exact BitVec.extractLsb'_append_eq_right
  simp [decodeFence, hfm, hpred, hsucc, hparts]

/-- A SYSTEM word's fields are plain exactly where the word is neither ECALL nor EBREAK (R264), since its fields
determine it. -/
theorem plainSystem_fields_iff {w : Word} (hop : opcodeOf w = 0x73#7) :
    plainSystem (immIOf w) (rs1Of w) (funct3Of w) (rdOf w) = true ↔ w ≠ 0x00000073#32 ∧ w ≠ 0x00100073#32 := by
  constructor
  · intro h
    constructor <;> rintro rfl <;> exact absurd h (by decide)
  · rintro ⟨hecall, hebreak⟩
    by_contra h
    have hw := encodeI_fields w
    have hfields : rs1Of w = 0 ∧ funct3Of w = 0 ∧ rdOf w = 0 ∧ (immIOf w = 0 ∨ immIOf w = 1) := by
      simpa [plainSystem, or_iff_not_imp_left] using h
    obtain ⟨hrs1, hf3, hrd, himm | himm⟩ := hfields <;> rw [hrs1, hf3, hrd, himm, hop] at hw
    · exact hecall hw.symm
    · exact hebreak hw.symm

theorem decodeSystem_of_plain {w : Word} (hop : opcodeOf w = 0x73#7)
    (h : plainSystem (immIOf w) (rs1Of w) (funct3Of w) (rdOf w) = true) :
    decodeSystem w = .ok (.system (immIOf w) (rs1Of w) (funct3Of w) (rdOf w)) := by
  obtain ⟨hecall, hebreak⟩ := (plainSystem_fields_iff hop).mp h
  rw [decodeSystem, if_neg hecall, if_neg hebreak]

/-! ## The word of an instruction decodes to it -/

/-- The round trip from the instruction: the class's opcode chooses the class's decoder, funct3 and funct7 choose the
instruction in it, and each format's fields come back. -/
theorem decode_encode {i : Instr} (h : i.wellFormed = true) : decode (encode i) = .ok i := by
  cases i
  case lui => rw [decode_of_opcode_lui (Laws.ClassOpcode.lui _ _)]; simp [encode]
  case auipc => rw [decode_of_opcode_auipc (Laws.ClassOpcode.auipc _ _)]; simp [encode]
  case jal rd off =>
    have hoff : off.getLsbD 0 = false := by simpa [Instr.wellFormed, evenOffset] using h
    rw [decode_of_opcode_jal (Laws.ClassOpcode.jal _ _)]; simp [encode, immJOf_encodeJ _ _ _ hoff]
  case jalr => rw [decode_of_opcode_jalr (by simp [encode])]; simp [encode, decodeJalr]
  case beq _ _ off | bne _ _ off | blt _ _ off | bge _ _ off | bltu _ _ off | bgeu _ _ off =>
    have hoff : off.getLsbD 0 = false := by simpa [Instr.wellFormed, evenOffset] using h
    rw [decode_of_opcode_branch (by simp [encode])]
    simp [encode, decodeBranch, immBOf_encodeB _ _ _ _ _ hoff]
  case lb | lh | lw | lbu | lhu => rw [decode_of_opcode_load (by simp [encode])]; simp [encode, decodeLoad]
  case sb | sh | sw => rw [decode_of_opcode_store (by simp [encode])]; simp [encode, decodeStore]
  case addi | slti | sltiu | xori | ori | andi | slli | srli | srai =>
    rw [decode_of_opcode_opImm (by simp [encode])]; simp [encode, decodeOpImm]
  case add | sub | sll | slt | sltu | xor | srl | sra | or | and =>
    rw [decode_of_opcode_op (by simp [encode])]; simp [encode, decodeOp]
  case fence fm pred succ rs1 f3 rd =>
    rw [decode_of_opcode_fence (by simp [encode])]; exact decodeFence_encodeI fm pred succ rs1 f3 rd _
  case ecall | ebreak => rfl
  case system imm rs1 f3 rd =>
    have hop := Laws.ClassOpcode.system imm rs1 f3 rd
    rw [decode_of_opcode_system hop, decodeSystem_of_plain hop (by simpa [encode, Instr.wellFormed] using h)]
    simp [encode]

end Sys2Proof
end

section
/-! SUPPORT. The round trip from the word: what it decodes to is well-formed and encodes to it (30_encoding.md R77, R82). -/

namespace Sys2Proof

/-- Where `r`, the decoding of `w`, is an instruction, that instruction is well-formed and its word is `w`. -/
def Reencodes (w : Word) (r : Except Reject Instr) : Prop := ∀ i, r = .ok i → i.wellFormed = true ∧ encode i = w

section
variable {w : Word} {i : Instr} {op : BitVec 7} {f3 : BitVec 3} {f7 : BitVec 7}

theorem Reencodes.ok (hi : i.wellFormed = true) (he : encode i = w) : Reencodes w (.ok i) := by
  rintro _ ⟨⟩; exact ⟨hi, he⟩

theorem Reencodes.error (w : Word) (r : Reject) : Reencodes w (.error r) := nofun

/-- A test of a field: what it says is known on each side. -/
theorem Reencodes.ite {c : Prop} [Decidable c] {a b : Except Reject Instr} (ha : c → Reencodes w a)
    (hb : ¬c → Reencodes w b) : Reencodes w (if c then a else b) := by
  split
  · exact ha ‹_›
  · exact hb ‹_›

/-! One rule per format: the instruction takes its operands from the word's fields, and its opcode, funct3 and funct7 are
those that the word was tested for. -/

theorem Reencodes.ofR (hop : opcodeOf w = op) (h3 : funct3Of w = f3) (h7 : funct7Of w = f7) (hi : i.wellFormed = true)
    (he : encode i = encodeR f7 (rs2Of w) (rs1Of w) f3 (rdOf w) op) : Reencodes w (.ok i) :=
  .ok hi (by rw [he, ← hop, ← h3, ← h7, encodeR_fields])

theorem Reencodes.ofI (hop : opcodeOf w = op) (h3 : funct3Of w = f3) (hi : i.wellFormed = true)
    (he : encode i = encodeI (immIOf w) (rs1Of w) f3 (rdOf w) op) : Reencodes w (.ok i) :=
  .ok hi (by rw [he, ← hop, ← h3, encodeI_fields])

theorem Reencodes.ofS (hop : opcodeOf w = op) (h3 : funct3Of w = f3) (hi : i.wellFormed = true)
    (he : encode i = encodeS (immSOf w) (rs2Of w) (rs1Of w) f3 op) : Reencodes w (.ok i) :=
  .ok hi (by rw [he, ← hop, ← h3, encodeS_fields])

theorem Reencodes.ofB (hop : opcodeOf w = op) (h3 : funct3Of w = f3) (hi : i.wellFormed = evenOffset (immBOf w))
    (he : encode i = encodeB (immBOf w) (rs2Of w) (rs1Of w) f3 op) : Reencodes w (.ok i) :=
  .ok (hi.trans (evenOffset_immBOf w)) (by rw [he, ← hop, ← h3, encodeB_fields])

theorem Reencodes.ofU (hop : opcodeOf w = op) (hi : i.wellFormed = true)
    (he : encode i = encodeU (immUOf w) (rdOf w) op) : Reencodes w (.ok i) :=
  .ok hi (by rw [he, ← hop, encodeU_fields])

theorem Reencodes.ofJ (hop : opcodeOf w = op) (hi : i.wellFormed = evenOffset (immJOf w))
    (he : encode i = encodeJ (immJOf w) (rdOf w) op) : Reencodes w (.ok i) :=
  .ok (hi.trans (evenOffset_immJOf w)) (by rw [he, ← hop, encodeJ_fields])

/-! ### The decoder of each class -/

theorem reencodes_decodeJalr (hop : opcodeOf w = 0x67#7) : Reencodes w (decodeJalr w) :=
  .ite (fun h3 => .ofI hop h3 rfl rfl) fun _ => .error w _

theorem reencodes_decodeBranch (hop : opcodeOf w = 0x63#7) : Reencodes w (decodeBranch w) :=
  .ite (fun h3 => .ofB hop h3 rfl rfl) fun _ => .ite (fun h3 => .ofB hop h3 rfl rfl) fun _ =>
    .ite (fun h3 => .ofB hop h3 rfl rfl) fun _ => .ite (fun h3 => .ofB hop h3 rfl rfl) fun _ =>
    .ite (fun h3 => .ofB hop h3 rfl rfl) fun _ => .ite (fun h3 => .ofB hop h3 rfl rfl) fun _ => .error w _

theorem reencodes_decodeLoad (hop : opcodeOf w = 0x03#7) : Reencodes w (decodeLoad w) :=
  .ite (fun h3 => .ofI hop h3 rfl rfl) fun _ => .ite (fun h3 => .ofI hop h3 rfl rfl) fun _ =>
    .ite (fun h3 => .ofI hop h3 rfl rfl) fun _ => .ite (fun h3 => .ofI hop h3 rfl rfl) fun _ =>
    .ite (fun h3 => .ofI hop h3 rfl rfl) fun _ => .error w _

theorem reencodes_decodeStore (hop : opcodeOf w = 0x23#7) : Reencodes w (decodeStore w) :=
  .ite (fun h3 => .ofS hop h3 rfl rfl) fun _ => .ite (fun h3 => .ofS hop h3 rfl rfl) fun _ =>
    .ite (fun h3 => .ofS hop h3 rfl rfl) fun _ => .error w _

/-- The last two tests of `decodeOpImm` are of funct7 alone: the earlier ones leave funct3 = 5. -/
theorem reencodes_decodeOpImm (hop : opcodeOf w = 0x13#7) : Reencodes w (decodeOpImm w) :=
  .ite (fun h3 => .ofI hop h3 rfl rfl) fun hne0 => .ite (fun h3 => .ofI hop h3 rfl rfl) fun hne2 =>
    .ite (fun h3 => .ofI hop h3 rfl rfl) fun hne3 => .ite (fun h3 => .ofI hop h3 rfl rfl) fun hne4 =>
    .ite (fun h3 => .ofI hop h3 rfl rfl) fun hne6 => .ite (fun h3 => .ofI hop h3 rfl rfl) fun hne7 =>
    .ite (fun h3 => .ite (fun hf7 => .ofR hop h3 hf7 rfl rfl) fun _ => .error w _) fun hne1 =>
    have h3 : funct3Of w = 5#3 := by bv_omega
    .ite (fun hf7 => .ofR hop h3 hf7 rfl rfl) fun _ => .ite (fun hf7 => .ofR hop h3 hf7 rfl rfl) fun _ => .error w _

/-- The last funct3 under funct7 = 0 is not tested: the earlier tests leave 7. -/
theorem reencodes_decodeOp (hop : opcodeOf w = 0x33#7) : Reencodes w (decodeOp w) :=
  .ite (fun hf7 =>
    .ite (fun h3 => .ofR hop h3 hf7 rfl rfl) fun hne0 => .ite (fun h3 => .ofR hop h3 hf7 rfl rfl) fun hne1 =>
      .ite (fun h3 => .ofR hop h3 hf7 rfl rfl) fun hne2 => .ite (fun h3 => .ofR hop h3 hf7 rfl rfl) fun hne3 =>
      .ite (fun h3 => .ofR hop h3 hf7 rfl rfl) fun hne4 => .ite (fun h3 => .ofR hop h3 hf7 rfl rfl) fun hne5 =>
      .ite (fun h3 => .ofR hop h3 hf7 rfl rfl) fun hne6 =>
      have h3 : funct3Of w = 7#3 := by bv_omega
      .ofR hop h3 hf7 rfl rfl) fun _ =>
    .ite (fun hf7 => .ite (fun h3 => .ofR hop h3 hf7 rfl rfl) fun _ =>
      .ite (fun h3 => .ofR hop h3 hf7 rfl rfl) fun _ => .error w _) fun _ => .error w _

theorem reencodes_decodeFence (hop : opcodeOf w = 0x0F#7) : Reencodes w (decodeFence w) :=
  .ofI hop rfl rfl (by rw [encode, fenceFields_append])

theorem reencodes_decodeSystem (hop : opcodeOf w = 0x73#7) : Reencodes w (decodeSystem w) :=
  .ite (fun h => .ok rfl h.symm) fun hecall => .ite (fun h => .ok rfl h.symm) fun hebreak =>
    .ofI hop rfl ((plainSystem_fields_iff hop).mpr ⟨hecall, hebreak⟩) rfl

end

/-- The round trip from the word. -/
theorem reencodes_decode (w : Word) : Reencodes w (decode w) :=
  .ite (fun hop => .ofU hop rfl rfl) fun _ => .ite (fun hop => .ofU hop rfl rfl) fun _ =>
    .ite (fun hop => .ofJ hop rfl rfl) fun _ => .ite reencodes_decodeJalr fun _ => .ite reencodes_decodeBranch fun _ =>
    .ite reencodes_decodeLoad fun _ => .ite reencodes_decodeStore fun _ => .ite reencodes_decodeOpImm fun _ =>
    .ite reencodes_decodeOp fun _ => .ite reencodes_decodeFence fun _ => .ite reencodes_decodeSystem fun _ => .error w _

end Sys2Proof
end

section
/-! SUPPORT. Which words each class decodes to no instruction (30_encoding.md R83). -/

namespace Sys2Proof

/-- No instruction is read. -/
def Rejected (r : Except Reject Instr) : Prop := ∃ e, r = .error e

@[simp] theorem not_rejected_ok (i : Instr) : ¬Rejected (.ok i) := nofun

@[simp] theorem rejected_error (e : Reject) : Rejected (.error e) := ⟨e, rfl⟩

@[simp] theorem rejected_ite {c : Prop} [Decidable c] {a b : Except Reject Instr} :
    Rejected (if c then a else b) ↔ if c then Rejected a else Rejected b := by
  split <;> rfl

section
variable (w : Word)

theorem rejected_decodeJalr : Rejected (decodeJalr w) ↔ funct3Of w ≠ 0#3 := by simp [decodeJalr]

theorem rejected_decodeBranch : Rejected (decodeBranch w) ↔ funct3Of w ∈ [2#3, 3#3] := by
  simp only [decodeBranch, rejected_ite, not_rejected_ok, rejected_error]
  generalize funct3Of w = f3
  revert f3; decide

theorem rejected_decodeLoad : Rejected (decodeLoad w) ↔ funct3Of w ∈ [3#3, 6#3, 7#3] := by
  simp only [decodeLoad, rejected_ite, not_rejected_ok, rejected_error]
  generalize funct3Of w = f3
  revert f3; decide

theorem rejected_decodeStore : Rejected (decodeStore w) ↔ funct3Of w ∈ [3#3, 4#3, 5#3, 6#3, 7#3] := by
  simp only [decodeStore, rejected_ite, not_rejected_ok, rejected_error]
  generalize funct3Of w = f3
  revert f3; decide

theorem rejected_decodeOpImm : Rejected (decodeOpImm w) ↔
    (funct3Of w = 1#3 ∧ funct7Of w ≠ 0x00#7) ∨ (funct3Of w = 5#3 ∧ funct7Of w ≠ 0x00#7 ∧ funct7Of w ≠ 0x20#7) := by
  by_cases h1 : funct3Of w = 1#3
  · simp [decodeOpImm, h1]
  by_cases h5 : funct3Of w = 5#3
  · simp [decodeOpImm, h5]
  · have hother : funct3Of w = 0#3 ∨ funct3Of w = 2#3 ∨ funct3Of w = 3#3 ∨ funct3Of w = 4#3 ∨ funct3Of w = 6#3 ∨
        funct3Of w = 7#3 := by bv_omega
    rcases hother with h | h | h | h | h | h <;> simp [decodeOpImm, h]

theorem rejected_decodeOp : Rejected (decodeOp w) ↔
    funct7Of w ≠ 0x00#7 ∧ ¬(funct7Of w = 0x20#7 ∧ (funct3Of w = 0#3 ∨ funct3Of w = 5#3)) := by
  by_cases h0 : funct7Of w = 0x00#7
  · simp [decodeOp, h0]
  by_cases h20 : funct7Of w = 0x20#7
  · simp [decodeOp, h20]
  · simp [decodeOp, h0, h20]

theorem not_rejected_decodeFence : ¬Rejected (decodeFence w) := by simp [decodeFence]

theorem not_rejected_decodeSystem : ¬Rejected (decodeSystem w) := by simp [decodeSystem]

end

end Sys2Proof
end

section
/-! SUPPORT. The immediates bit by bit (30_encoding.md R72 to R76), and the split of a constant into an upper and a lower
part (R93). -/

namespace Sys2Proof

/-! ## The bits of a word's immediate fields -/

/-- Bit `k` of a sign-extended field is bit `k` of the field, and its top bit from there on. -/
theorem getLsbD_signExtend_min {n k : Nat} (x : BitVec n) (hk : k < 32) :
    (x.signExtend 32).getLsbD k = x.getLsbD (min k (n - 1)) := by
  rw [BitVec.getLsbD_signExtend, BitVec.msb_eq_getLsbD_last]
  rcases Nat.lt_or_ge k n with h | h
  · simp [hk, h, Nat.min_eq_left (Nat.le_sub_one_of_lt h)]
  · simp [hk, Nat.not_lt.mpr h, Nat.min_eq_right (Nat.le_trans (Nat.sub_le n 1) h)]

theorem setWidth_signExtend {n : Nat} (x : BitVec n) (hn : n ≤ 32) : (x.signExtend 32).setWidth n = x := by
  refine BitVec.eq_of_getLsbD_eq fun i hi => ?_
  rw [BitVec.getLsbD_setWidth, getLsbD_signExtend_min x (Nat.lt_of_lt_of_le hi hn),
    Nat.min_eq_left (Nat.le_sub_one_of_lt hi)]
  simp [hi]

section
variable (w : Word) {k : Nat}

theorem getLsbD_immIOf (hk : k < 12) : (immIOf w).getLsbD k = w.getLsbD (20 + k) := by
  simp [immIOf, hk]

theorem getLsbD_immSOf (hk : k < 12) : (immSOf w).getLsbD k = w.getLsbD (if k < 5 then 7 + k else 20 + k) := by
  simp only [immSOf, BitVec.getLsbD_extractLsb', BitVec.getLsbD_append, -Nat.reduceAdd]
  interval_cases k <;> simp

theorem getLsbD_immBOf (hk : k < 13) : (immBOf w).getLsbD k =
    (k != 0 && w.getLsbD (if k < 5 then 7 + k else if k < 11 then 20 + k else if k = 11 then 7 else 31)) := by
  simp only [immBOf, BitVec.getLsbD_extractLsb', BitVec.getLsbD_append, -Nat.reduceAdd]
  interval_cases k <;> simp

theorem getLsbD_immJOf (hk : k < 21) : (immJOf w).getLsbD k =
    (k != 0 && w.getLsbD (if k < 11 then 20 + k else if k = 11 then 20 else if k < 20 then k else 31)) := by
  simp only [immJOf, BitVec.getLsbD_extractLsb', BitVec.getLsbD_append, -Nat.reduceAdd]
  interval_cases k <;> simp

end

namespace Machine

/-! ## Upper and lower parts -/

/-- The U-immediate of a word is the word with its low 12 bits cleared (30_encoding.md R75). -/
theorem immU_immUOf (w : Word) : immU (immUOf w) = w &&& 0xFFFFF000#32 := by
  refine BitVec.eq_of_getLsbD_eq fun i hi => ?_
  simp only [immU, immUOf, BitVec.getLsbD_extractLsb', BitVec.getLsbD_append, BitVec.getLsbD_and, -Nat.reduceAdd]
  interval_cases i <;> simp

/-- A word whose low 12 bits are 0 is the U-immediate of its upper bits. -/
theorem immU_immUOf_of_setWidth_eq_zero {w : Word} (h : w.setWidth 12 = 0) : immU (immUOf w) = w := by
  rw [immU_immUOf]
  refine BitVec.eq_of_getLsbD_eq fun i hi => ?_
  have hlow : i < 12 → w.getLsbD i = false := fun hlt => by simpa [hlt] using congrArg (·.getLsbD i) h
  rcases Nat.lt_or_ge i 12 with hlt | hge
  · simp [hlow hlt]
  · have hmask : (0xFFFFF000#32).getLsbD i = true := by interval_cases i <;> rfl
    rw [BitVec.getLsbD_and, hmask, Bool.and_true]

/-- Taking the sign-extended low part away leaves the low 12 bits 0 (30_encoding.md R93). -/
theorem setWidth_sub_lowPart (v : Word) : (v - (v.extractLsb' 0 12).signExtend 32).setWidth 12 = 0 := by
  have hlow : ((v.extractLsb' 0 12).signExtend 32).setWidth 12 = v.setWidth 12 := by
    rw [setWidth_signExtend _ (by decide), BitVec.setWidth_eq_extractLsb' (by decide)]
  have hsum := congrArg (BitVec.setWidth 12) (BitVec.sub_add_cancel v ((v.extractLsb' 0 12).signExtend 32))
  rw [BitVec.setWidth_add _ _ (by decide), hlow] at hsum
  exact add_eq_right.mp hsum

/-- The upper part is the U-immediate field of what is left. -/
theorem immU_upperPart (v : Word) :
    immU (((v - (v.extractLsb' 0 12).signExtend 32) >>> 12).extractLsb' 0 20) + immI (v.extractLsb' 0 12) = v := by
  have hfield (x : Word) : (x >>> 12).extractLsb' 0 20 = immUOf x := by
    refine BitVec.eq_of_getLsbD_eq fun i hi => ?_
    simp [immUOf, hi]
  rw [hfield, immU_immUOf_of_setWidth_eq_zero (setWidth_sub_lowPart v), immI, BitVec.sub_add_cancel]

end Machine

end Sys2Proof
end

section
/-! SUPPORT. JALR's meaning, with both orders of the link and the read of its base (42_jumps.md R132, R133). -/

namespace Sys2Proof.Machine

theorem exec_jalr (rd rs1 : RegIdx) (imm : BitVec 12) (s : State) :
    exec (.jalr rd rs1 imm) s = .next ((s.writeReg rd (s.pc + 4)).setPc
      (if s.cfg.jalrLinkFirst then jalrTarget (s.writeReg rd (s.pc + 4)) rs1 imm else jalrTarget s rs1 imm)) := rfl

end Sys2Proof.Machine
end

section
/-! The statements of the family 30_encoding.md. -/

open Sys2Proof Sys2Proof.Machine

namespace Sys2Proof.Proofs

/-- Settles O22: the round trip from the instruction, class by class. -/
theorem decodeInvertsEncode : Obligations.DecodeInvertsEncode := fun _ h => decode_encode h

/-- Settles O23: the round trip from the word, format by format. -/
theorem encodeInvertsDecode : Obligations.EncodeInvertsDecode := reencodes_decode

/-- Settles O24: class by class: the opcode chooses the class's decoder, or none. -/
theorem unrecognizedWordsAreExactlyTheListed : Obligations.UnrecognizedWordsAreExactlyTheListed := by
  rintro w op f3 f7 (hop : op = opcodeOf w) (h3 : f3 = funct3Of w) (h7 : f7 = funct7Of w)
  change Rejected (decode w) ↔ _
  subst f3 f7
  by_cases hclass : op ∈ [0x37#7, 0x17#7, 0x6F#7, 0x67#7, 0x63#7, 0x03#7, 0x23#7, 0x13#7, 0x33#7, 0x0F#7, 0x73#7]
  · simp only [List.mem_cons, List.not_mem_nil, or_false] at hclass
    rcases hclass with rfl | rfl | rfl | rfl | rfl | rfl | rfl | rfl | rfl | rfl | rfl
    · simp [decode_of_opcode_lui hop.symm]
    · simp [decode_of_opcode_auipc hop.symm]
    · simp [decode_of_opcode_jal hop.symm]
    · simp [decode_of_opcode_jalr hop.symm, rejected_decodeJalr]
    · simp [decode_of_opcode_branch hop.symm, rejected_decodeBranch]
    · simp [decode_of_opcode_load hop.symm, rejected_decodeLoad]
    · simp [decode_of_opcode_store hop.symm, rejected_decodeStore]
    · simp [decode_of_opcode_opImm hop.symm, rejected_decodeOpImm]
    · simp [decode_of_opcode_op hop.symm, rejected_decodeOp]
    · simp [decode_of_opcode_fence hop.symm, not_rejected_decodeFence]
    · simp [decode_of_opcode_system hop.symm, not_rejected_decodeSystem]
  · refine ⟨fun _ => .inl hclass, fun _ => ?_⟩
    simp only [hop, List.mem_cons, List.not_mem_nil, or_false, not_or] at hclass
    simp [decode, hclass]

/-- Settles O25: each field's bits, and its top bit repeated above them. -/
theorem immediatesAssembleTheirBits : Obligations.ImmediatesAssembleTheirBits := by
  intro w
  refine ⟨fun k hk => ?_, fun k hk => ?_, fun k hk => ?_, immU_immUOf w, fun k hk => ?_⟩
  · rw [immI, getLsbD_signExtend_min _ hk, getLsbD_immIOf w (by omega)]
    congr 1; split_ifs <;> omega
  · rw [immS, getLsbD_signExtend_min _ hk, getLsbD_immSOf w (by omega)]
    congr 1; split_ifs <;> omega
  · have hzero : (min k 12 != 0) = (k != 0) := by rw [Bool.eq_iff_iff]; simp
    rw [immB, getLsbD_signExtend_min _ hk, getLsbD_immBOf w (by omega), hzero]
    congr 2; split_ifs <;> omega
  · have hzero : (min k 20 != 0) = (k != 0) := by rw [Bool.eq_iff_iff]; simp
    rw [immJ, getLsbD_signExtend_min _ hk, getLsbD_immJOf w (by omega), hzero]
    congr 2; split_ifs <;> omega

/-- Settles O53: the second instruction reads what the first wrote, unless rd is a hardwired x0, which drops both. -/
theorem upperAndLowerPartsRebuildAConstant : Obligations.UpperAndLowerPartsRebuildAConstant := by
  rintro v s rd lo12 hi20 rfl rfl
  refine ⟨immU_upperPart v, _, _, writeBack_eq rd _ s, writeBack_eq rd _ _, ?_, fun hrd => ?_, fun r hr => ?_⟩
  · simp [BitVec.add_assoc]
  · rw [State.setPc_reg, State.reg_writeReg_same _ (by simpa using hrd), State.setPc_reg,
      State.reg_writeReg_same _ hrd, immU_upperPart]
  · rw [State.setPc_reg, State.reg_writeReg_other _ hr, State.setPc_reg, State.reg_writeReg_other _ hr]

/-- Settles O54: JALR's base is its own link value where the link is written first, and what AUIPC left in x1 otherwise. -/
theorem theCallSequenceDependsOnTheLinkOrder : Obligations.TheCallSequenceDependsOnTheLinkOrder := by
  intro s hi20 lo12
  refine ⟨_, _, writeBack_eq 1 _ s, exec_jalr 1 1 lo12 _, ?_, fun hfirst => ?_, fun hlast => ?_⟩
  · rw [State.setPc_reg, State.reg_writeReg_same _ (by simp)]
    simp [BitVec.add_assoc]
  · simp [hfirst, jalrTarget_writeReg, BitVec.add_assoc]
  · simp [hlast, jalrTarget, State.reg_writeReg_same, BitVec.add_comm]

/-- Settles O26: the decoder computes on each word. -/
theorem workedWordsDecode : Obligations.WorkedWordsDecode := by
  unfold Obligations.WorkedWordsDecode; decide

end Sys2Proof.Proofs
end

section
/-! SUPPORT. How a step ends: the word that the fetch makes of its four bytes, what an unrecognized word does under each
policy, and which meanings always complete (40_step_cycle.md R101, R106, R107; 60_exceptions.md R280, R282). -/

namespace Sys2Proof.Machine

/-! ## The fetch -/

/-- A word read is its four bytes, the lowest address lowest. -/
theorem Memory.readValue_word (m : Memory) (a : Nat) :
    m.readValue a .word = m.get (a + 3) ++ m.get (a + 2) ++ m.get (a + 1) ++ m.get a :=
  BitVec.append_assoc.symm

theorem fetch_of_le {s : State} (h : s.pc.toNat + 4 ≤ s.cfg.memSize) :
    fetch s = some (s.mem.get (s.pc.toNat + 3) ++ s.mem.get (s.pc.toNat + 2) ++ s.mem.get (s.pc.toNat + 1) ++
      s.mem.get s.pc.toNat) := by
  rw [fetch, State.memRead_of_le (n := .word) h, Memory.readValue_word]

theorem fetch_of_gt {s : State} (h : s.cfg.memSize < s.pc.toNat + 4) : fetch s = none :=
  State.memRead_of_gt (n := .word) h

/-! ## Unrecognized words -/

theorem execUnrecognized_of_nop {s : State} (w : Word) (h : s.cfg.illegalPolicy = .nop) :
    execUnrecognized w s = .next (s.setPc (s.pc + 4)) := by
  rw [execUnrecognized, h, advance_eq]

theorem execUnrecognized_of_fault {s : State} (w : Word) (h : s.cfg.illegalPolicy = .fault) :
    execUnrecognized w s = raise (.unrecognized w) s := by
  rw [execUnrecognized, h]

/-! ## Meanings that complete in every state -/

/-- Every instruction but the loads and the stores completes. -/
theorem exec_completes {i : Instr} (hload : Laws.classOpcode i ≠ 0x03#7) (hstore : Laws.classOpcode i ≠ 0x23#7)
    (s : State) : ∃ t, exec i s = .next t := by
  cases i
  case lb | lh | lw | lbu | lhu => exact absurd rfl hload
  case sb | sh | sw => exact absurd rfl hstore
  all_goals exact ⟨_, rfl⟩

/-! ## A step that is not stuck completes or raises -/

/-- `r` is a next state or a raised fault: neither a refusal nor the answer of a stuck step. -/
def CompletesOrRaises (r : Result) : Prop := (∃ t, r = .next t) ∨ ∃ f t, r = .fault (.raised f t)

theorem CompletesOrRaises.of_next (t : State) : CompletesOrRaises (.next t) := .inl ⟨t, rfl⟩

theorem CompletesOrRaises.of_raise (f : FaultRecord) (s : State) : CompletesOrRaises (raise f s) := .inr ⟨f, _, rfl⟩

theorem CompletesOrRaises.ne_refused {r : Result} (h : CompletesOrRaises r) (q : Refusal) : r ≠ .refused q := by
  obtain ⟨t, rfl⟩ | ⟨f, t, rfl⟩ := h <;> nofun

theorem Effect.completesOrRaises {s : State} {r : Result} (he : Effect s r) : CompletesOrRaises r := by
  cases he with
  | wrote | moved | stored => exact .of_next _
  | loadFault | storeFault => exact .of_raise _ _

theorem execUnrecognized_completesOrRaises (w : Word) (s : State) : CompletesOrRaises (execUnrecognized w s) := by
  cases hp : s.cfg.illegalPolicy with
  | nop => exact execUnrecognized_of_nop w hp ▸ .of_next _
  | fault => exact execUnrecognized_of_fault w hp ▸ .of_raise _ s

theorem step_completesOrRaises {s : State} (hr : s.status = .running) : CompletesOrRaises (step s) := by
  rcases step_cases s with ⟨f, hf, -⟩ | ⟨-, -, he⟩ | ⟨-, w, r, -, -, he⟩ | ⟨-, w, i, -, -, he⟩
  · cases hr.symm.trans hf
  · exact he ▸ .of_raise _ s
  · exact he ▸ execUnrecognized_completesOrRaises w s
  · exact he ▸ (exec_effect i s).completesOrRaises

theorem step_ne_refused (s : State) (q : Refusal) : step s ≠ .refused q := by
  cases hs : s.status with
  | running => exact (step_completesOrRaises hs).ne_refused q
  | faulted f => rw [step_of_faulted hs]; nofun

end Sys2Proof.Machine
end

section
/-! The statements of the family 40_step_cycle.md. -/

open Sys2Proof Sys2Proof.Machine

namespace Sys2Proof.Proofs

/-- Settles O33: the word that the fetch makes of the four bytes is the one that the step decodes. -/
theorem fetchIsOnlyRangeChecked : Obligations.FetchIsOnlyRangeChecked := by
  refine fun s hr => ⟨fun hle => ?_, fun hgt => step_of_fetch_none hr (fetch_of_gt hgt)⟩
  exact ⟨_, _, _, _, State.readByte_of_lt (by omega), State.readByte_of_lt (by omega), State.readByte_of_lt (by omega),
    State.readByte_of_lt (by omega), fun _ hd => step_of_decode hr (fetch_of_le hle) hd,
    fun _ hd => step_of_unrecognized hr (fetch_of_le hle) hd⟩

/-- Settles O34, by the policy: the step is what an unrecognized word does under it. -/
theorem unrecognizedWordsFollowThePolicy : Obligations.UnrecognizedWordsFollowThePolicy := by
  intro s w r hr hw hd
  have hstep : step s = execUnrecognized w s := step_of_unrecognized hr hw hd
  refine ⟨fun hnop => ⟨s.setPc (s.pc + 4), hstep.trans (execUnrecognized_of_nop w hnop), rfl, rfl, rfl, ?_, rfl, rfl⟩,
    fun hfault => hstep.trans (execUnrecognized_of_fault w hfault)⟩
  exact s.setPc_readByte _

/-- Settles O38, by what the word decodes to: nothing, which completes under `NOP`, or an instruction of its opcode's
class, no load and no store, which always completes. -/
theorem theBlockStopsOnlyByAFault : Obligations.TheBlockStopsOnlyByAFault := by
  refine ⟨step_ne_refused, fun s hr => step_completesOrRaises hr, fun s w hr hnop hw hload hstore => ?_⟩
  cases hd : decode w with
  | error r => exact ⟨_, (step_of_unrecognized hr hw hd).trans (execUnrecognized_of_nop w hnop)⟩
  | ok i =>
    have hclass : Laws.classOpcode i = opcodeOf w := (fieldsFrom_of_decode hd).opcode
    obtain ⟨t, ht⟩ := exec_completes (hclass.trans_ne hload) (hclass.trans_ne hstore) s
    exact ⟨t, (step_of_decode hr hw hd).trans ht⟩

/-- Settles O32: the word at the pc is the one fetched. -/
theorem stepRunsTheDecodedInstruction : Obligations.StepRunsTheDecodedInstruction :=
  fun _ _ _ hr hw hd => step_of_decode hr hw hd

end Sys2Proof.Proofs
end

section
/-! SUPPORT. What an instruction that writes one register leaves: the destination's new value, or nothing of it where it
is a hardwired x0, and the rest of the block as it was (10_state.md R23, R24; 40_step_cycle.md R103). -/

namespace Sys2Proof.Claims

open Machine

variable {i : Instr} {s : State} {rd : RegIdx} {v target : Word}

/-- An instruction whose next state is a register write followed by a new pc. -/
theorem CompletesWriting.of_setPc_writeReg (h : exec i s = .next ((s.writeReg rd v).setPc target)) :
    CompletesWriting i s rd v target := by
  refine ⟨_, h, rfl, ?_, fun r hr => State.reg_writeReg_other v hr, ?_⟩
  · split
    case isTrue hx0 =>
      rw [State.writeReg_discarded v hx0]
      exact ⟨rfl, State.reg_hardwired hx0⟩
    case isFalse hx0 => exact State.reg_writeReg_same v hx0
  · exact ⟨s.writeReg_cfg rd v, s.writeReg_readByte rd v, s.writeReg_status rd v, s.writeReg_draws rd v⟩

theorem CompletesWriting.of_writeBack (h : exec i s = writeBack rd v s) : CompletesWriting i s rd v (s.pc + 4) :=
  .of_setPc_writeReg (h.trans (writeBack_eq rd v s))

end Sys2Proof.Claims
end

section
/-! SUPPORT. The U-immediate as a number (30_encoding.md R75), and the meanings of LUI and AUIPC (41_upper_immediate.md
R120, R121). -/

namespace Sys2Proof.Machine

/-- Twelve zeros below the field multiply it by 4096. -/
theorem immU_eq_ofNat (imm20 : BitVec 20) : immU imm20 = BitVec.ofNat 32 (imm20.toNat * 4096) := by
  have hlt : imm20.toNat * 4096 < 2 ^ 32 := by omega
  apply BitVec.eq_of_toNat_eq
  rw [BitVec.toNat_ofNat, Nat.mod_eq_of_lt hlt, immU, BitVec.toNat_append, BitVec.toNat_zero, Nat.or_zero,
    Nat.shiftLeft_eq]

theorem immU_add_eq_ofNat (imm20 : BitVec 20) (a : Word) :
    immU imm20 + a = BitVec.ofNat 32 (imm20.toNat * 4096 + a.toNat) := by
  rw [immU_eq_ofNat, BitVec.ofNat_add, BitVec.ofNat_toNat, BitVec.setWidth_eq]

theorem exec_lui (rd : RegIdx) (imm20 : BitVec 20) (s : State) :
    exec (.lui rd imm20) s = writeBack rd (immU imm20) s := rfl

theorem exec_auipc (rd : RegIdx) (imm20 : BitVec 20) (s : State) :
    exec (.auipc rd imm20) s = writeBack rd (immU imm20 + s.pc) s := rfl

end Sys2Proof.Machine
end

section
/-! The statements of the family 41_upper_immediate.md. -/

open Sys2Proof Sys2Proof.Machine Sys2Proof.Claims

namespace Sys2Proof.Proofs

/-- Settles O1: the word is LUI's encoding, and the value written back is the U-immediate. -/
theorem luiPlacesUpperImmediate : Obligations.LuiPlacesUpperImmediate := fun s rd imm20 =>
  ⟨decode_encode (i := .lui rd imm20) rfl, .of_writeBack (immU_eq_ofNat imm20 ▸ exec_lui rd imm20 s)⟩

/-- Settles O2: the pc that is added is the one before the step, which the write-back then advances. -/
theorem auipcAddsItsOwnAddress : Obligations.AuipcAddsItsOwnAddress := fun s rd imm20 =>
  ⟨decode_encode (i := .auipc rd imm20) rfl, .of_writeBack (immU_add_eq_ofNat imm20 s.pc ▸ exec_auipc rd imm20 s)⟩

end Sys2Proof.Proofs
end

section
/-! SUPPORT. Addresses as numbers: the link address, a base plus a signed offset, and bit 0 cleared; and the meanings of
JAL and JALR over them (42_jumps.md R130 to R133). -/

namespace Sys2Proof.Machine

/-! ## Addresses as numbers, modulo 2^32 -/

theorem pc_add_four_eq_ofNat (s : State) : s.pc + 4 = BitVec.ofNat 32 (s.pc.toNat + 4) := by
  rw [BitVec.ofNat_add, BitVec.ofNat_toNat, BitVec.setWidth_eq]
  rfl

theorem add_signExtend_eq_ofInt_toInt {n : Nat} (a : Word) (x : BitVec n) :
    a + x.signExtend 32 = BitVec.ofInt 32 (a.toInt + x.toInt) := by
  rw [BitVec.ofInt_add, BitVec.ofInt_toInt, BitVec.signExtend]

theorem add_signExtend_eq_ofInt_toNat {n : Nat} (a : Word) (x : BitVec n) :
    a + x.signExtend 32 = BitVec.ofInt 32 (a.toNat + x.toInt) := by
  rw [BitVec.ofInt_add, BitVec.ofInt_natCast, BitVec.ofNat_toNat, BitVec.setWidth_eq, BitVec.signExtend]

/-- Clearing bit 0 rounds down to an even number. -/
theorem and_not_one_eq_ofNat (a : Word) : a &&& ~~~1#32 = BitVec.ofNat 32 (2 * (a.toNat / 2)) := by
  have hshift : a &&& ~~~1#32 = a >>> 1 <<< 1 := by
    refine BitVec.eq_of_getLsbD_eq fun i hi => ?_
    cases i with
    | zero => simp
    | succ i => simp [hi, -BitVec.reduceNot, Nat.add_comm 1]
  apply BitVec.eq_of_toNat_eq
  rw [hshift, BitVec.toNat_shiftLeft, BitVec.toNat_ushiftRight, BitVec.toNat_ofNat, Nat.shiftLeft_eq,
    Nat.shiftRight_eq_div_pow, pow_one, Nat.mul_comm]

/-! ## JAL and JALR -/

theorem exec_jal (rd : RegIdx) (off : BitVec 21) (s : State) :
    exec (.jal rd off) s = .next ((s.writeReg rd (s.pc + 4)).setPc (jalTarget s off)) := rfl

/-- JAL's target counts from the pc before the step (R131). -/
theorem jalTarget_eq_ofInt (s : State) (off : BitVec 21) :
    jalTarget s off = BitVec.ofInt 32 (s.pc.toNat + off.toInt) :=
  add_signExtend_eq_ofInt_toNat s.pc off

/-- The base JALR counts from: the link `v` where it is written first, over `rs1` itself, and is not discarded; the old
`x[rs1]` otherwise (R133). -/
def jalrBase (s : State) (rd rs1 : RegIdx) (v : Word) : Word :=
  if s.cfg.jalrLinkFirst = true ∧ rd = rs1 ∧ ¬(s.cfg.x0Hardwired = true ∧ rd = 0) then v else s.reg rs1

/-- Both orders of JALR jump to the base plus the immediate with bit 0 cleared (R132). -/
theorem exec_jalr_jalrBase (rd rs1 : RegIdx) (imm : BitVec 12) (s : State) :
    exec (.jalr rd rs1 imm) s = .next ((s.writeReg rd (s.pc + 4)).setPc
      ((jalrBase s rd rs1 (s.pc + 4) + immI imm) &&& ~~~1#32)) := by
  rw [exec_jalr, jalrTarget_writeReg, jalrBase]
  cases s.cfg.jalrLinkFirst with
  | true => simp only [if_true, true_and]
  | false => simp [jalrTarget]

theorem jalrBase_eq {s : State} {rd rs1 : RegIdx} {v base : Word}
    (hlink : (s.cfg.jalrLinkFirst = true ∧ rd = rs1 ∧ ¬(s.cfg.x0Hardwired = true ∧ rd = 0)) → base = v)
    (hold : ¬(s.cfg.jalrLinkFirst = true ∧ rd = rs1 ∧ ¬(s.cfg.x0Hardwired = true ∧ rd = 0)) → base = s.reg rs1) :
    jalrBase s rd rs1 v = base := by
  unfold jalrBase
  split
  case isTrue h => exact (hlink h).symm
  case isFalse h => exact (hold h).symm

end Sys2Proof.Machine
end

section
/-! The statements of the family 42_jumps.md. -/

open Sys2Proof Sys2Proof.Machine Sys2Proof.Claims

namespace Sys2Proof.Proofs

/-- Settles O3: the link and the target are both computed from the pc before the step. -/
theorem jalLinksAndJumps : Obligations.JalLinksAndJumps := by
  refine fun s rd off => ⟨fun heven => decode_encode (i := .jal rd off) ?_, ?_⟩
  · rw [Instr.wellFormed, evenOffset, heven, Bool.not_false]
  · rw [← pc_add_four_eq_ofNat, ← jalTarget_eq_ofInt]
    exact .of_setPc_writeReg (exec_jal rd off s)

/-- Settles O4: in either order the base is `jalrBase`, and clearing bit 0 of the sum rounds it down to an even number. -/
theorem jalrLinksAndJumpsInEitherOrder : Obligations.JalrLinksAndJumpsInEitherOrder := by
  intro s rd rs1 imm base hlink hold
  refine ⟨decode_encode (i := .jalr rd rs1 imm) rfl, ?_⟩
  rw [← pc_add_four_eq_ofNat, ← add_signExtend_eq_ofInt_toInt, ← and_not_one_eq_ofNat, ← jalrBase_eq hlink hold]
  exact .of_setPc_writeReg (exec_jalr_jalrBase rd rs1 imm s)

end Sys2Proof.Proofs
end

section
/-! SUPPORT. The branch conditions as comparisons of numbers, the meanings of the six branches, and what every branch
leaves (43_branches.md R140 to R146). -/

namespace Sys2Proof.Machine

/-! ## Conditions (00_scope.md R14) -/

theorem lessSigned_eq_true {a b : Word} : lessSigned a b = true ↔ a.toInt < b.toInt := BitVec.slt_iff_toInt_lt

theorem not_lessSigned_eq_true {a b : Word} : (!lessSigned a b) = true ↔ a.toInt ≥ b.toInt := by
  rw [Bool.not_eq_true', ← Bool.not_eq_true, lessSigned_eq_true, Int.not_lt]

theorem lessUnsigned_eq_true {a b : Word} : lessUnsigned a b = true ↔ a.toNat < b.toNat := BitVec.ult_iff_lt

theorem not_lessUnsigned_eq_true {a b : Word} : (!lessUnsigned a b) = true ↔ a.toNat ≥ b.toNat := by
  rw [Bool.not_eq_true', ← Bool.not_eq_true, lessUnsigned_eq_true, Nat.not_lt]

theorem beq_eq_true_iff_toNat_eq {a b : Word} : (a == b) = true ↔ a.toNat = b.toNat :=
  beq_iff_eq.trans BitVec.toNat_inj.symm

theorem bne_eq_true_iff_toNat_ne {a b : Word} : (a != b) = true ↔ a.toNat ≠ b.toNat :=
  bne_iff_ne.trans BitVec.toNat_inj.not.symm

/-! ## The target and the meanings -/

/-- A taken branch counts from its own address (R140). -/
theorem branchTarget_eq_ofInt (s : State) (off : BitVec 13) :
    branchTarget s off = BitVec.ofInt 32 (s.pc.toNat + off.toInt) :=
  add_signExtend_eq_ofInt_toNat s.pc off

section
variable (rs1 rs2 : RegIdx) (off : BitVec 13) (s : State)

theorem exec_beq : exec (.beq rs1 rs2 off) s = branch (s.reg rs1 == s.reg rs2) off s := rfl

theorem exec_bne : exec (.bne rs1 rs2 off) s = branch (s.reg rs1 != s.reg rs2) off s := rfl

theorem exec_blt : exec (.blt rs1 rs2 off) s = branch (lessSigned (s.reg rs1) (s.reg rs2)) off s := rfl

theorem exec_bge : exec (.bge rs1 rs2 off) s = branch (!lessSigned (s.reg rs1) (s.reg rs2)) off s := rfl

theorem exec_bltu : exec (.bltu rs1 rs2 off) s = branch (lessUnsigned (s.reg rs1) (s.reg rs2)) off s := rfl

theorem exec_bgeu : exec (.bgeu rs1 rs2 off) s = branch (!lessUnsigned (s.reg rs1) (s.reg rs2)) off s := rfl

end

end Sys2Proof.Machine

namespace Sys2Proof.Claims

open Machine

variable {i : Instr} {s : State}

/-- An instruction whose next state is a new pc and nothing else. -/
theorem CompletesWritingNothing.of_setPc {target : Word} (h : exec i s = .next (s.setPc target)) :
    CompletesWritingNothing i s target :=
  ⟨_, h, rfl, rfl, rfl, s.setPc_readByte target, rfl, rfl⟩

/-- An instruction with this encoding that runs as `branch` branches where the condition it evaluates is true. -/
theorem BranchesOn.of_branch {funct3 : BitVec 3} {rs1 rs2 : RegIdx} {off : BitVec 13} {c : Bool} {cond : Prop}
    (hword : encode i = bWord off rs2 rs1 funct3 0x63#7) (hwf : i.wellFormed = evenOffset off)
    (hexec : exec i s = branch c off s) (hcond : c = true ↔ cond) : BranchesOn funct3 i s rs1 rs2 off cond := by
  rw [branch_eq, branchTarget_eq_ofInt] at hexec
  refine ⟨fun heven => ?_, fun htaken => .of_setPc ?_, fun hnot => .of_setPc ?_⟩
  · rw [← hword]
    exact decode_encode (by rw [hwf, evenOffset, heven, Bool.not_false])
  · rw [hexec, if_pos (hcond.mpr htaken)]
  · rw [hexec, if_neg (mt hcond.mp hnot)]

end Sys2Proof.Claims
end

section
/-! The statements of the family 43_branches.md. -/

open Sys2Proof Sys2Proof.Machine Sys2Proof.Claims

namespace Sys2Proof.Proofs

/-- Settles O5: two words are equal exactly where all 32 bits are, that is, where they are the same number. -/
theorem beqBneCompareForEquality : Obligations.BeqBneCompareForEquality := fun s rs1 rs2 off =>
  ⟨.of_branch rfl rfl (exec_beq rs1 rs2 off s) beq_eq_true_iff_toNat_eq,
    .of_branch rfl rfl (exec_bne rs1 rs2 off s) bne_eq_true_iff_toNat_ne⟩

/-- Settles O6: BGE's condition is the negation of BLT's, which compares the signed values. -/
theorem bltBgeCompareSigned : Obligations.BltBgeCompareSigned := fun s rs1 rs2 off =>
  ⟨.of_branch rfl rfl (exec_blt rs1 rs2 off s) lessSigned_eq_true,
    .of_branch rfl rfl (exec_bge rs1 rs2 off s) not_lessSigned_eq_true⟩

/-- Settles O7: BGEU's condition is the negation of BLTU's, which compares the unsigned values. -/
theorem bltuBgeuCompareUnsigned : Obligations.BltuBgeuCompareUnsigned := fun s rs1 rs2 off =>
  ⟨.of_branch rfl rfl (exec_bltu rs1 rs2 off s) lessUnsigned_eq_true,
    .of_branch rfl rfl (exec_bgeu rs1 rs2 off s) not_lessUnsigned_eq_true⟩

end Sys2Proof.Proofs
end

section
/-! SUPPORT. What a load reads as a number of its bytes, extended (44_loads.md R161), and the
meanings of the five loads (R162 to R166). -/

namespace Sys2Proof.Machine

/-! ## Bytes side by side, as a number -/

theorem toNat_append_eq_mul_add {m n : Nat} (x : BitVec m) (y : BitVec n) :
    (x ++ y).toNat = x.toNat * 2 ^ n + y.toNat := by
  rw [BitVec.toNat_append, ← Nat.shiftLeft_add_eq_or_of_lt y.isLt, Nat.shiftLeft_eq]

theorem toInt_append_bytes (b₁ b₀ : Byte) : (b₁ ++ b₀).toInt = b₁.toInt * 256 + b₀.toNat := by
  rw [BitVec.toInt_append, if_neg (by decide), Int.mul_comm]
  rfl

theorem extractLsb'_setWidth_self {n : Nat} (x : BitVec n) (hn : n ≤ 32) : (x.setWidth 32).extractLsb' 0 n = x := by
  rw [BitVec.extractLsb'_setWidth_of_le (by omega), BitVec.extractLsb'_eq_self]

/-! ## A value read, extended -/

section
variable (cfg : Config) (m : Memory) (a : Nat)

theorem zeroExtendByte_readValue : zeroExtendByte (m.readValue a .byte) = BitVec.ofNat 32 (m.get a).toNat := by
  rw [zeroExtendByte, Memory.readValue, extractLsb'_setWidth_self _ (by decide), BitVec.ofNat_toNat]

theorem signExtendByte_readValue : signExtendByte (m.readValue a .byte) = BitVec.ofInt 32 (m.get a).toInt := by
  rw [signExtendByte, Memory.readValue, extractLsb'_setWidth_self _ (by decide), BitVec.signExtend]

theorem zeroExtendHalf_readValue : zeroExtendHalf (m.readValue a .half) =
    BitVec.ofNat 32 ((m.get (a + 1)).toNat * 256 + (m.get a).toNat) := by
  rw [zeroExtendHalf, Memory.readValue, extractLsb'_setWidth_self _ (by decide), ← BitVec.ofNat_toNat,
    toNat_append_eq_mul_add]
  rfl

theorem signExtendHalf_readValue : signExtendHalf (m.readValue a .half) =
    BitVec.ofInt 32 ((m.get (a + 1)).toInt * 256 + (m.get a).toNat) := by
  rw [signExtendHalf, Memory.readValue, extractLsb'_setWidth_self _ (by decide), BitVec.signExtend, toInt_append_bytes]

theorem extendLb_readValue : extendLb cfg (m.readValue a .byte) =
    if cfg.loadSignExtend = true then BitVec.ofInt 32 (m.get a).toInt else BitVec.ofNat 32 (m.get a).toNat := by
  rw [extendLb, signExtendByte_readValue, zeroExtendByte_readValue]

theorem extendLh_readValue : extendLh cfg (m.readValue a .half) =
    if cfg.loadSignExtend = true then BitVec.ofInt 32 ((m.get (a + 1)).toInt * 256 + (m.get a).toNat)
    else BitVec.ofNat 32 ((m.get (a + 1)).toNat * 256 + (m.get a).toNat) := by
  rw [extendLh, signExtendHalf_readValue, zeroExtendHalf_readValue]

/-- A word read is the number whose digits to base 256 are its bytes; a load of a word extends nothing (R164). -/
theorem Memory.readValue_word_eq_ofNat : m.readValue a .word =
    BitVec.ofNat 32 ((m.get (a + 3)).toNat * 16777216 + (m.get (a + 2)).toNat * 65536 + (m.get (a + 1)).toNat * 256 +
      (m.get a).toNat) := by
  have hdigits : (m.readValue a .word).toNat = (m.get (a + 3)).toNat * 16777216 + (m.get (a + 2)).toNat * 65536 +
      (m.get (a + 1)).toNat * 256 + (m.get a).toNat := by
    simp only [Memory.readValue, toNat_append_eq_mul_add]
    omega
  rw [← hdigits, BitVec.ofNat_toNat, BitVec.setWidth_eq]

end

/-! ## The five loads -/

section
variable (rd rs1 : RegIdx) (imm : BitVec 12) (s : State)

theorem exec_lb : exec (.lb rd rs1 imm) s = load .byte (extendLb s.cfg) rd rs1 imm s := rfl

theorem exec_lh : exec (.lh rd rs1 imm) s = load .half (extendLh s.cfg) rd rs1 imm s := rfl

theorem exec_lw : exec (.lw rd rs1 imm) s = load .word id rd rs1 imm s := rfl

theorem exec_lbu : exec (.lbu rd rs1 imm) s = load .byte zeroExtendByte rd rs1 imm s := rfl

theorem exec_lhu : exec (.lhu rd rs1 imm) s = load .half zeroExtendHalf rd rs1 imm s := rfl

end

end Sys2Proof.Machine

namespace Sys2Proof.Claims

open Machine

theorem isBasePlus_iff {addr : Word} {s : State} {rs1 : RegIdx} {imm : BitVec 12} :
    IsBasePlus addr s rs1 imm ↔ addr = loadAddr s rs1 imm := by
  rw [IsBasePlus, loadAddr, immI, add_signExtend_eq_ofInt_toInt]

section
variable {i : Instr} {s : State} {n : Width} {extend : Word → Word} {rd rs1 : RegIdx} {imm : BitVec 12} {addr : Word}

/-- A load in range writes the value read, extended. -/
theorem CompletesWriting.of_load (haddr : IsBasePlus addr s rs1 imm) (hexec : exec i s = load n extend rd rs1 imm s)
    (hle : addr.toNat + n.bytes ≤ s.cfg.memSize) {v : Word} (hv : extend (s.mem.readValue addr.toNat n) = v) :
    CompletesWriting i s rd v (s.pc + 4) := by
  obtain rfl := isBasePlus_iff.mp haddr
  subst hv
  exact .of_writeBack (hexec.trans (load_of_le extend rd hle))

theorem LoadFaults.of_load (haddr : IsBasePlus addr s rs1 imm) (hexec : exec i s = load n extend rd rs1 imm s) :
    LoadFaults i s addr n := by
  obtain rfl := isBasePlus_iff.mp haddr
  exact fun hgt => hexec.trans (load_of_gt extend rd hgt)

end

end Sys2Proof.Claims
end

section
/-! The statements of the family 44_loads.md. -/

open Sys2Proof Sys2Proof.Machine Sys2Proof.Claims

namespace Sys2Proof.Proofs

/-- Settles O8: the byte is in range exactly where the load reads, and its extension is by the parameter. -/
theorem lbLoadsByte : Obligations.LbLoadsByte := fun s rd rs1 imm _ haddr =>
  ⟨decode_encode (i := .lb rd rs1 imm) rfl,
    fun hle => ⟨_, State.readByte_of_lt hle,
      .of_load haddr (exec_lb rd rs1 imm s) hle (extendLb_readValue s.cfg s.mem _)⟩,
    .of_load haddr (exec_lb rd rs1 imm s)⟩

/-- Settles O9: the signed halfword is its high byte, signed, times 256 plus its low byte. -/
theorem lhLoadsHalfword : Obligations.LhLoadsHalfword := fun s rd rs1 imm _ haddr =>
  ⟨decode_encode (i := .lh rd rs1 imm) rfl,
    fun hle => ⟨_, _, State.readByte_of_lt (by omega), State.readByte_of_lt (by omega),
      .of_load haddr (exec_lh rd rs1 imm s) hle (extendLh_readValue s.cfg s.mem _)⟩,
    .of_load haddr (exec_lh rd rs1 imm s)⟩

/-- Settles O10: the word is its four bytes, and nothing is extended. -/
theorem lwLoadsWord : Obligations.LwLoadsWord := fun s rd rs1 imm _ haddr =>
  ⟨decode_encode (i := .lw rd rs1 imm) rfl,
    fun hle => ⟨_, _, _, _, State.readByte_of_lt (by omega), State.readByte_of_lt (by omega),
      State.readByte_of_lt (by omega), State.readByte_of_lt (by omega),
      .of_load haddr (exec_lw rd rs1 imm s) hle (s.mem.readValue_word_eq_ofNat _)⟩,
    .of_load haddr (exec_lw rd rs1 imm s)⟩

/-- Settles O11: the two meanings extend with zeros and do not look at the parameter. -/
theorem lbuLhuZeroExtend : Obligations.LbuLhuZeroExtend := fun s rd rs1 imm _ haddr =>
  ⟨decode_encode (i := .lbu rd rs1 imm) rfl, decode_encode (i := .lhu rd rs1 imm) rfl,
    fun hle => ⟨_, State.readByte_of_lt hle,
      .of_load haddr (exec_lbu rd rs1 imm s) hle (zeroExtendByte_readValue s.mem _)⟩,
    fun hle => ⟨_, _, State.readByte_of_lt (by omega), State.readByte_of_lt (by omega),
      .of_load haddr (exec_lhu rd rs1 imm s) hle (zeroExtendHalf_readValue s.mem _)⟩,
    .of_load haddr (exec_lbu rd rs1 imm s), .of_load haddr (exec_lhu rd rs1 imm s)⟩

end Sys2Proof.Proofs
end

section
/-! SUPPORT. What a store leaves: the bytes of `x[rs2]` at its address where they are in range, and a failed write's bytes
where they are not (45_stores.md R180; 60_exceptions.md R284); and the meanings of the three stores (R181 to R183). -/

namespace Sys2Proof.Machine

section
variable (rs1 rs2 : RegIdx) (imm : BitVec 12) (s : State)

theorem exec_sb : exec (.sb rs1 rs2 imm) s = store .byte rs1 rs2 imm s := rfl

theorem exec_sh : exec (.sh rs1 rs2 imm) s = store .half rs1 rs2 imm s := rfl

theorem exec_sw : exec (.sw rs1 rs2 imm) s = store .word rs1 rs2 imm s := rfl

end

end Sys2Proof.Machine

namespace Sys2Proof.Claims

open Machine

theorem isBasePlus_storeAddr (s : State) (rs1 : RegIdx) (imm : BitVec 12) :
    IsBasePlus (storeAddr s rs1 imm) s rs1 imm :=
  add_signExtend_eq_ofInt_toInt (s.reg rs1) imm

section
variable {i : Instr} {s : State} {n : Width} {rs1 rs2 : RegIdx} {imm : BitVec 12}

/-- A store in range changes the bytes stored and the pc alone. -/
theorem CompletesStoring.of_store (hs : s.Sound) (hexec : exec i s = store n rs1 rs2 imm s)
    (hle : (storeAddr s rs1 imm).toNat + n.bytes ≤ s.cfg.memSize) :
    CompletesStoring i s (storeAddr s rs1 imm).toNat n (s.reg rs2) :=
  ⟨_, hexec.trans (store_of_le rs2 hle), rfl, rfl, fun _ hk => State.readByte_stored _ hs hle hk,
    fun _ hb => State.readByte_stored_other _ hb, rfl, rfl, rfl⟩

/-- A store out of range raises with what its failed write leaves: bytes old or new (20_memory.md R44), and a new status. -/
theorem StoreFaults.of_store (hs : s.Sound) (hexec : exec i s = store n rs1 rs2 imm s) :
    StoreFaults i s (storeAddr s rs1 imm) n (s.reg rs2) := by
  intro hgt
  obtain ⟨hleft, -, -⟩ := Proofs.failedWritesLeaveOldOrNewBytes s _ n (s.reg rs2) hs (State.memWrite_eq_none.mpr hgt)
  exact ⟨_, hexec.trans (store_of_gt rs2 hgt), rfl, hleft⟩

end

end Sys2Proof.Claims
end

section
/-! The statements of the family 45_stores.md. -/

open Sys2Proof Sys2Proof.Machine Sys2Proof.Claims

namespace Sys2Proof.Proofs

/-- Settles O12: each of the three is the one `store` at its width, which completes or raises by the range alone. -/
theorem storesWriteLowBytes : Obligations.StoresWriteLowBytes := fun s rs1 rs2 imm hs =>
  have hsb := exec_sb rs1 rs2 imm s
  have hsh := exec_sh rs1 rs2 imm s
  have hsw := exec_sw rs1 rs2 imm s
  ⟨isBasePlus_storeAddr s rs1 imm, decode_encode (i := .sb rs1 rs2 imm) rfl, decode_encode (i := .sh rs1 rs2 imm) rfl,
    decode_encode (i := .sw rs1 rs2 imm) rfl, .of_store hs hsb, .of_store hs hsh, .of_store hs hsw,
    .of_store hs hsb, .of_store hs hsh, .of_store hs hsw⟩

end Sys2Proof.Proofs
end

section
/-! SUPPORT. Comparisons and shifts of words as arithmetic on their values (00_scope.md R14), the sign-extended
immediate as a number and bit by bit (30_encoding.md R72), and the meanings of the register-immediate operations
(46_alu_immediate.md R201 to R209) and of SLT and SLTU (47_alu_register.md R234, R235). -/

namespace Sys2Proof.Machine

/-! ## The immediate (R72) -/

theorem toInt_immI (imm : BitVec 12) : (immI imm).toInt = imm.toInt :=
  BitVec.toInt_signExtend_of_le (by decide)

/-- A negative immediate, taken as unsigned, is 2^32 more (R204). -/
theorem toNat_immI (imm : BitVec 12) : ((immI imm).toNat : Int) = imm.toInt % 4294967296 := by
  rw [immI, BitVec.signExtend, BitVec.toNat_ofInt, Int.toNat_of_nonneg (Int.emod_nonneg _ (by decide))]
  rfl

theorem getLsbD_immI {k : Nat} (imm : BitVec 12) (hk : k < 32) : (immI imm).getLsbD k = imm.getLsbD (min k 11) :=
  getLsbD_signExtend_min imm hk

/-! ## Comparisons -/

theorem boolWord_eq_ite {c : Bool} {p : Prop} [Decidable p] (h : c = true ↔ p) : boolWord c = if p then 1 else 0 := by
  simp only [boolWord, h]

theorem lessSigned_immI {a : Word} {imm : BitVec 12} : lessSigned a (immI imm) = true ↔ a.toInt < imm.toInt := by
  rw [lessSigned_eq_true, toInt_immI]

theorem lessUnsigned_immI {a : Word} {imm : BitVec 12} :
    lessUnsigned a (immI imm) = true ↔ (a.toNat : Int) < imm.toInt % 4294967296 := by
  rw [lessUnsigned_eq_true, ← toNat_immI, Int.ofNat_lt]

/-! ## Shifts -/

section
variable (a : Word) (n : BitVec 5)

theorem shiftLeft_eq_ofNat : shiftLeft a n = BitVec.ofNat 32 (a.toNat * 2 ^ n.toNat) := by
  apply BitVec.eq_of_toNat_eq
  rw [shiftLeft, BitVec.toNat_shiftLeft, Nat.shiftLeft_eq, BitVec.toNat_ofNat]

theorem shiftRightLogical_eq_ofNat : shiftRightLogical a n = BitVec.ofNat 32 (a.toNat / 2 ^ n.toNat) := by
  rw [← Nat.shiftRight_eq_div_pow, ← BitVec.toNat_ushiftRight, BitVec.ofNat_toNat, BitVec.setWidth_eq,
    shiftRightLogical]

/-- Copies of bit 31 from the top are floor division of the signed value. -/
theorem shiftRightArithmetic_eq_ofInt : shiftRightArithmetic a n = BitVec.ofInt 32 (a.toInt / 2 ^ n.toNat) := by
  rw [shiftRightArithmetic, BitVec.sshiftRight, Int.shiftRight_eq_div_pow, Int.natCast_pow, Int.cast_ofNat_Int]

end

/-! ## The meanings -/

section
variable (rd rs1 rs2 : RegIdx) (imm : BitVec 12) (shamt : BitVec 5) (s : State)

theorem exec_addi : exec (.addi rd rs1 imm) s = writeBack rd (s.reg rs1 + immI imm) s := rfl

theorem exec_slti : exec (.slti rd rs1 imm) s = writeBack rd (boolWord (lessSigned (s.reg rs1) (immI imm))) s := rfl

theorem exec_sltiu : exec (.sltiu rd rs1 imm) s = writeBack rd (boolWord (lessUnsigned (s.reg rs1) (immI imm))) s := rfl

theorem exec_xori : exec (.xori rd rs1 imm) s = writeBack rd (s.reg rs1 ^^^ immI imm) s := rfl

theorem exec_ori : exec (.ori rd rs1 imm) s = writeBack rd (s.reg rs1 ||| immI imm) s := rfl

theorem exec_andi : exec (.andi rd rs1 imm) s = writeBack rd (s.reg rs1 &&& immI imm) s := rfl

theorem exec_slli : exec (.slli rd rs1 shamt) s = writeBack rd (shiftLeft (s.reg rs1) shamt) s := rfl

theorem exec_srli : exec (.srli rd rs1 shamt) s = writeBack rd (shiftRightLogical (s.reg rs1) shamt) s := rfl

theorem exec_srai : exec (.srai rd rs1 shamt) s = writeBack rd (shiftRightArithmetic (s.reg rs1) shamt) s := rfl

theorem exec_slt : exec (.slt rd rs1 rs2) s = writeBack rd (boolWord (lessSigned (s.reg rs1) (s.reg rs2))) s := rfl

theorem exec_sltu : exec (.sltu rd rs1 rs2) s = writeBack rd (boolWord (lessUnsigned (s.reg rs1) (s.reg rs2))) s := rfl

end

end Sys2Proof.Machine

namespace Sys2Proof.Claims

open Machine

/-- A write-back of a comparison's result writes 1 where the comparison holds and 0 where it does not. -/
theorem CompletesWriting.of_boolWord {i : Instr} {s : State} {rd : RegIdx} {c : Bool} {p : Prop} [Decidable p]
    (h : exec i s = writeBack rd (boolWord c) s) (hc : c = true ↔ p) :
    CompletesWriting i s rd (if p then 1 else 0) (s.pc + 4) :=
  .of_writeBack (boolWord_eq_ite hc ▸ h)

end Sys2Proof.Claims
end

section
/-! The statements of the family 46_alu_immediate.md. -/

open Sys2Proof Sys2Proof.Machine Sys2Proof.Claims

namespace Sys2Proof.Proofs

/-- Settles O13: adding the sign-extended immediate is adding its signed value modulo 2^32. -/
theorem addiAddsModulo : Obligations.AddiAddsModulo := fun s rd rs1 imm =>
  ⟨decode_encode (i := .addi rd rs1 imm) rfl,
    .of_writeBack (add_signExtend_eq_ofInt_toInt (s.reg rs1) imm ▸ exec_addi rd rs1 imm s)⟩

/-- Settles O15: each of the four writes the truth of one comparison, of signed or of unsigned values. -/
theorem setLessThanWritesTheComparison : Obligations.SetLessThanWritesTheComparison := fun s rd rs1 rs2 imm =>
  ⟨decode_encode (i := .slti rd rs1 imm) rfl, decode_encode (i := .sltiu rd rs1 imm) rfl,
    decode_encode (i := .slt rd rs1 rs2) rfl, decode_encode (i := .sltu rd rs1 rs2) rfl,
    .of_boolWord (exec_slti rd rs1 imm s) lessSigned_immI, .of_boolWord (exec_sltiu rd rs1 imm s) lessUnsigned_immI,
    .of_boolWord (exec_slt rd rs1 rs2 s) lessSigned_eq_true,
    .of_boolWord (exec_sltu rd rs1 rs2 s) lessUnsigned_eq_true⟩

/-- Settles O16: the operations act bit by bit, and bit `k` of the immediate's word is bit `min k 11` of its field. -/
theorem immediateLogicIsBitwise : Obligations.ImmediateLogicIsBitwise := by
  refine fun s rd rs1 imm => ⟨decode_encode (i := .xori rd rs1 imm) rfl, decode_encode (i := .ori rd rs1 imm) rfl,
    decode_encode (i := .andi rd rs1 imm) rfl, _, _, _, .of_writeBack (exec_xori rd rs1 imm s),
    .of_writeBack (exec_ori rd rs1 imm s), .of_writeBack (exec_andi rd rs1 imm s), fun k hk => ?_⟩
  rw [← getLsbD_immI imm hk]
  exact ⟨BitVec.getLsbD_xor, BitVec.getLsbD_or, BitVec.getLsbD_and⟩

/-- Settles O18: each shift is the multiplication or division by 2^shamt of the value the statement names. -/
theorem immediateShiftsScaleByPowersOfTwo : Obligations.ImmediateShiftsScaleByPowersOfTwo := fun s rd rs1 shamt =>
  ⟨decode_encode (i := .slli rd rs1 shamt) rfl, decode_encode (i := .srli rd rs1 shamt) rfl,
    decode_encode (i := .srai rd rs1 shamt) rfl,
    .of_writeBack (shiftLeft_eq_ofNat (s.reg rs1) shamt ▸ exec_slli rd rs1 shamt s),
    .of_writeBack (shiftRightLogical_eq_ofNat (s.reg rs1) shamt ▸ exec_srli rd rs1 shamt s),
    .of_writeBack (shiftRightArithmetic_eq_ofInt (s.reg rs1) shamt ▸ exec_srai rd rs1 shamt s)⟩

end Sys2Proof.Proofs
end

section
/-! SUPPORT. Sums, differences and register shift amounts as numbers (00_scope.md R14; 30_encoding.md R79), and the
meanings of the register-register operations (47_alu_register.md R231 to R233, R236 to R240). -/

namespace Sys2Proof.Machine

section
variable (a b : Word)

theorem add_eq_ofInt_toInt : a + b = BitVec.ofInt 32 (a.toInt + b.toInt) := by
  rw [BitVec.ofInt_add, BitVec.ofInt_toInt, BitVec.ofInt_toInt]

theorem sub_eq_ofInt_toInt : a - b = BitVec.ofInt 32 (a.toInt - b.toInt) :=
  BitVec.eq_of_toInt_eq (by rw [BitVec.toInt_sub, BitVec.toInt_ofInt])

/-- A register shift's amount is what the low five bits of `x[rs2]` hold. -/
theorem toNat_shiftAmount : (shiftAmount b).toNat = b.toNat % 32 := by
  rw [shiftAmount, BitVec.extractLsb'_toNat, Nat.shiftRight_zero]

end

section
variable (rd rs1 rs2 : RegIdx) (s : State)

theorem exec_add : exec (.add rd rs1 rs2) s = writeBack rd (s.reg rs1 + s.reg rs2) s := rfl

theorem exec_sub : exec (.sub rd rs1 rs2) s = writeBack rd (s.reg rs1 - s.reg rs2) s := rfl

theorem exec_xor : exec (.xor rd rs1 rs2) s = writeBack rd (s.reg rs1 ^^^ s.reg rs2) s := rfl

theorem exec_or : exec (.or rd rs1 rs2) s = writeBack rd (s.reg rs1 ||| s.reg rs2) s := rfl

theorem exec_and : exec (.and rd rs1 rs2) s = writeBack rd (s.reg rs1 &&& s.reg rs2) s := rfl

theorem exec_sll : exec (.sll rd rs1 rs2) s = writeBack rd (shiftLeft (s.reg rs1) (shiftAmount (s.reg rs2))) s := rfl

theorem exec_srl :
    exec (.srl rd rs1 rs2) s = writeBack rd (shiftRightLogical (s.reg rs1) (shiftAmount (s.reg rs2))) s := rfl

theorem exec_sra :
    exec (.sra rd rs1 rs2) s = writeBack rd (shiftRightArithmetic (s.reg rs1) (shiftAmount (s.reg rs2))) s := rfl

end

end Sys2Proof.Machine
end

section
/-! The statements of the family 47_alu_register.md. -/

open Sys2Proof Sys2Proof.Machine Sys2Proof.Claims

namespace Sys2Proof.Proofs

/-- Settles O14: the sum and the difference of words are those of their signed values, modulo 2^32. -/
theorem addSubAreModulo : Obligations.AddSubAreModulo := fun s rd rs1 rs2 =>
  ⟨decode_encode (i := .add rd rs1 rs2) rfl, decode_encode (i := .sub rd rs1 rs2) rfl,
    .of_writeBack (add_eq_ofInt_toInt (s.reg rs1) (s.reg rs2) ▸ exec_add rd rs1 rs2 s),
    .of_writeBack (sub_eq_ofInt_toInt (s.reg rs1) (s.reg rs2) ▸ exec_sub rd rs1 rs2 s)⟩

/-- Settles O17: bit `k` of a word operation's result is the operation on the operands' bits `k`. -/
theorem registerLogicIsBitwise : Obligations.RegisterLogicIsBitwise := fun s rd rs1 rs2 =>
  ⟨decode_encode (i := .xor rd rs1 rs2) rfl, decode_encode (i := .or rd rs1 rs2) rfl,
    decode_encode (i := .and rd rs1 rs2) rfl, _, _, _, .of_writeBack (exec_xor rd rs1 rs2 s),
    .of_writeBack (exec_or rd rs1 rs2 s), .of_writeBack (exec_and rd rs1 rs2 s),
    fun _ _ => ⟨BitVec.getLsbD_xor, BitVec.getLsbD_or, BitVec.getLsbD_and⟩⟩

/-- Settles O19: the shifts are those of the immediate shifts, by the value of the low five bits of `x[rs2]`. -/
theorem registerShiftsUseFiveBits : Obligations.RegisterShiftsUseFiveBits := by
  rintro s rd rs1 rs2 n rfl
  rw [← toNat_shiftAmount]
  exact ⟨decode_encode (i := .sll rd rs1 rs2) rfl, decode_encode (i := .srl rd rs1 rs2) rfl,
    decode_encode (i := .sra rd rs1 rs2) rfl,
    .of_writeBack (shiftLeft_eq_ofNat (s.reg rs1) (shiftAmount (s.reg rs2)) ▸ exec_sll rd rs1 rs2 s),
    .of_writeBack (shiftRightLogical_eq_ofNat (s.reg rs1) (shiftAmount (s.reg rs2)) ▸ exec_srl rd rs1 rs2 s),
    .of_writeBack (shiftRightArithmetic_eq_ofInt (s.reg rs1) (shiftAmount (s.reg rs2)) ▸ exec_sra rd rs1 rs2 s)⟩

end Sys2Proof.Proofs
end

section
/-! SUPPORT. The two classes that only advance the pc: which words are in them, and what each of their instructions does
(48_misc_mem_system.md R260 to R265). -/

namespace Sys2Proof

/-- A SYSTEM word apart from ECALL's and EBREAK's is SYSTEM with the word's own fields (R264). -/
theorem decode_encodeI_system {imm : BitVec 12} {rs1 : RegIdx} {f3 : BitVec 3} {rd : RegIdx}
    (hecall : encodeI imm rs1 f3 rd 0x73#7 ≠ 0x00000073#32) (hebreak : encodeI imm rs1 f3 rd 0x73#7 ≠ 0x00100073#32) :
    decode (encodeI imm rs1 f3 rd 0x73#7) = .ok (.system imm rs1 f3 rd) := by
  rw [decode_of_opcode_system (opcodeOf_encodeI rs1 f3 rd _ imm), decodeSystem, if_neg hecall, if_neg hebreak]
  simp

/-- Every word of the two opcodes decodes. -/
theorem decode_eq_ok_of_opcode_fence_or_system {w : Word} (hop : opcodeOf w ∈ [0x0F#7, 0x73#7]) :
    ∃ i, decode w = .ok i := by
  have hok : ¬Rejected (decode w) := by
    simp only [List.mem_cons, List.not_mem_nil, or_false] at hop
    rcases hop with hop | hop
    · rw [decode_of_opcode_fence hop]; exact not_rejected_decodeFence w
    · rw [decode_of_opcode_system hop]; exact not_rejected_decodeSystem w
  cases hd : decode w with
  | ok i => exact ⟨i, rfl⟩
  | error r => exact absurd ⟨r, hd⟩ hok

namespace Machine

/-- Every instruction of the two classes only advances the pc. -/
theorem exec_of_classOpcode_fence_or_system {i : Instr} (h : Laws.classOpcode i ∈ [0x0F#7, 0x73#7]) (s : State) :
    exec i s = .next (s.setPc (s.pc + 4)) := by
  cases i
  case fence | ecall | ebreak | system => rfl
  all_goals exact absurd h (by simp [Laws.classOpcode])

end Machine

namespace Claims

open Machine

theorem CompletesWritingNothing.of_classOpcode {i : Instr} (h : Laws.classOpcode i ∈ [0x0F#7, 0x73#7]) (s : State) :
    CompletesWritingNothing i s (s.pc + 4) :=
  .of_setPc (exec_of_classOpcode_fence_or_system h s)

end Claims

end Sys2Proof
end

section
/-! The statements of the family 48_misc_mem_system.md. -/

open Sys2Proof Sys2Proof.Machine Sys2Proof.Claims

namespace Sys2Proof.Proofs

/-- Settles O20: the word is FENCE's encoding with every one of its 25 free bits a field. -/
theorem fenceOnlyAdvances : Obligations.FenceOnlyAdvances := fun s fm pred succ rs1 funct3 rd =>
  ⟨decode_encode (i := .fence fm pred succ rs1 funct3 rd) rfl, .of_classOpcode (.head _) s⟩

/-- Settles O21: ECALL's and EBREAK's words are told apart first, and all three kinds of word advance alike. -/
theorem systemClassOnlyAdvances : Obligations.SystemClassOnlyAdvances := by
  rintro s funct12 rs1 funct3 rd _ rfl
  exact ⟨decode_encode (i := .ecall) rfl, decode_encode (i := .ebreak) rfl, decode_encodeI_system,
    .of_classOpcode (.tail _ (.head _)) s, .of_classOpcode (.tail _ (.head _)) s, .of_classOpcode (.tail _ (.head _)) s⟩

/-- Settles O39: the word decodes whatever the policy, and to an instruction of its opcode's class. -/
theorem systemAndFenceWordsNeverFault : Obligations.SystemAndFenceWordsNeverFault := by
  intro s w hr hw (hop : opcodeOf w = 0x73#7 ∨ opcodeOf w = 0x0F#7)
  have hmem : opcodeOf w ∈ [0x0F#7, 0x73#7] := by simpa using hop.symm
  obtain ⟨i, hd⟩ := decode_eq_ok_of_opcode_fence_or_system hmem
  rw [step_of_decode hr hw hd]
  exact CompletesWritingNothing.of_classOpcode ((fieldsFrom_of_decode hd).opcode ▸ hmem) s

end Sys2Proof.Proofs
end

section
/-! SUPPORT. Which step raises which fault, and what the raise leaves (60_exceptions.md R280 to R285); and what the
host's write can do (R296). -/

namespace Sys2Proof.Machine

/-! ## What a raise leaves alone (R284) -/

/-- Reading a register depends on the parameters and the registers alone. -/
theorem State.reg_congr {s t : State} (hc : t.cfg = s.cfg) (hr : t.regs = s.regs) (i : RegIdx) : t.reg i = s.reg i := by
  simp only [State.reg, hc, hr]

theorem LeftByRaise.frame {s t : State} {f : FaultRecord} (h : LeftByRaise s f t) :
    t.status = .faulted f ∧ t.regs = s.regs ∧ t.pc = s.pc ∧ t.cfg = s.cfg := by
  cases h with
  | unchanged => exact ⟨rfl, rfl, rfl, rfl⟩
  | drawn addr v n _ => rw [State.partialWrite_eq]; exact ⟨rfl, rfl, rfl, rfl⟩

/-! ## A faulted block (R285) -/

/-- Every run of one or more steps from a faulted block is stuck at its first step. -/
theorem run_of_faulted {s : State} {f : FaultRecord} (h : s.status = .faulted f) {k : Nat} (hk : 0 < k) :
    core.run k s = .fault (.stuck f) := by
  obtain ⟨j, rfl⟩ := Nat.exists_eq_succ_of_ne_zero hk.ne'
  simp only [Host.Core.run, core_step, step_of_faulted h]

/-! ## The host's write -/

theorem State.hostWrite_of_le {s : State} {a : Word} {n : Width} (v : Word) (h : a.toNat + n.bytes ≤ s.cfg.memSize) :
    s.hostWrite a n v = (.done, { s with mem := s.mem.stored a.toNat v n.bytes }) := by
  rw [State.hostWrite, State.memWrite_of_le v h]

theorem State.hostWrite_of_gt {s : State} {a : Word} {n : Width} (v : Word) (h : s.cfg.memSize < a.toNat + n.bytes) :
    s.hostWrite a n v = (.outOfRange, s.partialWrite a.toNat n v) := by
  rw [State.hostWrite, State.memWrite_of_gt v h]

/-- No host write changes the status, one that fails neither. -/
theorem State.hostWrite_status (s : State) (a : Word) (n : Width) (v : Word) :
    (s.hostWrite a n v).2.status = s.status := by
  rcases Nat.lt_or_ge s.cfg.memSize (a.toNat + n.bytes) with hgt | hle
  · rw [State.hostWrite_of_gt v hgt, State.partialWrite_eq]
  · rw [State.hostWrite_of_le v hle]

/-! ## Instructions that raise (R280) -/

/-- The instruction `i`, run in `s`, raises `f` and leaves `t`: it is a load out of range, which changes nothing but the
status, or a store out of range, which leaves what its failed write leaves. -/
inductive AccessRaises (s : State) (i : Instr) : FaultRecord → State → Prop where
  | loadOutOfRange (addr : Word) (n : Width) (hclass : Laws.classOpcode i = 0x03#7)
      (h : s.cfg.memSize < addr.toNat + n.bytes) :
      AccessRaises s i (.outOfRange .load addr n) { s with status := .faulted (.outOfRange .load addr n) }
  | storeOutOfRange {n : Width} {rs1 rs2 : RegIdx} {imm : BitVec 12}
      (hoperands : i.storeOperands = some (n, rs1, rs2, imm))
      (h : s.cfg.memSize < (storeAddr s rs1 imm).toNat + n.bytes) :
      AccessRaises s i (.outOfRange .store (storeAddr s rs1 imm) n)
        { s.partialWrite (storeAddr s rs1 imm).toNat n (s.reg rs2) with
          status := .faulted (.outOfRange .store (storeAddr s rs1 imm) n) }

section
variable {s t : State} {i : Instr} {f : FaultRecord}

theorem AccessRaises.of_load {n : Width} {extend : Word → Word} {rd rs1 : RegIdx} {imm : BitVec 12}
    (hclass : Laws.classOpcode i = 0x03#7) (h : load n extend rd rs1 imm s = .fault (.raised f t)) :
    AccessRaises s i f t := by
  rcases Nat.lt_or_ge s.cfg.memSize ((loadAddr s rs1 imm).toNat + n.bytes) with hgt | hle
  · rw [load_of_gt extend rd hgt] at h; cases h; exact .loadOutOfRange _ n hclass hgt
  · rw [load_of_le extend rd hle, writeBack_eq] at h; cases h

theorem AccessRaises.of_store {n : Width} {rs1 rs2 : RegIdx} {imm : BitVec 12}
    (hoperands : i.storeOperands = some (n, rs1, rs2, imm)) (h : store n rs1 rs2 imm s = .fault (.raised f t)) :
    AccessRaises s i f t := by
  rcases Nat.lt_or_ge s.cfg.memSize ((storeAddr s rs1 imm).toNat + n.bytes) with hgt | hle
  · rw [store_of_gt rs2 hgt] at h; cases h; exact .storeOutOfRange hoperands hgt
  · rw [store_of_le rs2 hle] at h; cases h

/-- Only a load or a store raises. -/
theorem exec_accessRaises (h : exec i s = .fault (.raised f t)) : AccessRaises s i f t := by
  cases i
  case lb | lh | lw | lbu | lhu => exact .of_load rfl h
  case sb | sh | sw => exact .of_store rfl h
  all_goals exact absurd h nofun

/-- The instructions with a store's operands are those of the STORE class. -/
theorem classOpcode_of_storeOperands {x : Width × RegIdx × RegIdx × BitVec 12} (h : i.storeOperands = some x) :
    Laws.classOpcode i = 0x23#7 := by
  cases i
  case sb | sh | sw => rfl
  all_goals cases h

/-! ## Steps that raise, in the order of R283 -/

/-- The three ways a step raises: at the fetch, at an unrecognized word, and in an instruction's access. -/
theorem step_raised_cases (h : step s = .fault (.raised f t)) :
    (s.cfg.memSize < s.pc.toNat + 4 ∧ f = fetchFault s ∧ t = { s with status := .faulted f }) ∨
    (∃ w r, fetch s = some w ∧ decode w = .error r ∧ s.cfg.illegalPolicy = .fault ∧ f = .unrecognized w ∧
      t = { s with status := .faulted f }) ∨
    (∃ w i, fetch s = some w ∧ decode w = .ok i ∧ AccessRaises s i f t) := by
  rcases step_cases s with ⟨g, -, he⟩ | ⟨-, hgt, he⟩ | ⟨-, w, r, hf, hd, he⟩ | ⟨-, w, i, hf, hd, he⟩ <;> rw [he] at h
  · cases h
  · cases h; exact .inl ⟨hgt, rfl, rfl⟩
  · cases hp : s.cfg.illegalPolicy with
    | nop => rw [execUnrecognized_of_nop w hp] at h; cases h
    | fault =>
      rw [execUnrecognized_of_fault w hp] at h
      cases h; exact .inr (.inl ⟨w, r, hf, hd, rfl, rfl, rfl⟩)
  · exact .inr (.inr ⟨w, i, hf, hd, exec_accessRaises h⟩)

end

/-- A failed write changes no byte but in-range ones of its own, each to the byte it was to store. -/
theorem State.readByte_partialWrite_cases {s : State} (hs : s.Sound) (addr : Nat) (n : Width) (v : Word) (a : Nat) :
    (s.partialWrite addr n v).readByte a = s.readByte a ∨
      ∃ k, k < n.bytes ∧ a = addr + k ∧ a < s.cfg.memSize ∧
        (s.partialWrite addr n v).readByte a = some (byteOf v k) := by
  by_cases hout : a < addr ∨ addr + n.bytes ≤ a
  · exact .inl (State.readByte_partialWrite_other v hout)
  obtain ⟨k, rfl⟩ := Nat.exists_eq_add_of_le (show addr ≤ a by omega)
  rcases Nat.lt_or_ge (addr + k) s.cfg.memSize with hlt | hge
  · exact (State.readByte_partialWrite v hs hlt).imp_right fun hnew => ⟨k, by omega, rfl, hlt, hnew⟩
  · left
    rw [State.partialWrite_eq, State.readByte_of_ge (s := s) hge]
    exact State.readByte_of_ge hge

end Sys2Proof.Machine
end

section
/-! The statements of the family 60_exceptions.md. -/

open Sys2Proof Sys2Proof.Machine

namespace Sys2Proof.Proofs

/-- Settles O35: the raise leaves a faulted block, from which no step is made, with the pc and the registers it had. -/
theorem aFaultEndsTheRun : Obligations.AFaultEndsTheRun := by
  intro s t f h
  obtain ⟨hstatus, hregs, hpc, hcfg⟩ := (step_leftByRaise h).frame
  exact ⟨hstatus, step_of_faulted hstatus, fun _ hk => run_of_faulted hstatus hk,
    fun a n v => (t.hostWrite_status a n v).trans hstatus, hpc,
    fun i => congrArg BitVec.toInt (State.reg_congr hcfg hregs i)⟩

/-- Settles O36, by which fault it is: only a store's leaves other bytes, those of its failed write. -/
theorem faultsArePrecise : Obligations.FaultsArePrecise := by
  intro s t f hs h
  obtain ⟨-, hregs, hpc, hcfg⟩ := (step_leftByRaise h).frame
  refine ⟨hregs, hpc, hcfg, fun a => ?_⟩
  rcases step_raised_cases h with ⟨-, -, rfl⟩ | ⟨w, r, -, -, -, -, rfl⟩ | ⟨w, i, hf, hd, hraises⟩
  · exact .inl rfl
  · exact .inl rfl
  cases hraises with
  | loadOutOfRange => exact .inl rfl
  | @storeOutOfRange n rs1 rs2 imm hoperands hgt =>
    have hop : opcodeOf w = 0x23#7 := (fieldsFrom_of_decode hd).opcode ▸ classOpcode_of_storeOperands hoperands
    obtain ⟨n', hfields⟩ := storeOperands_of_decodeStore (decode_of_opcode_store hop ▸ hd)
    cases hoperands.symm.trans hfields
    refine (State.readByte_partialWrite_cases hs _ n _ a).imp_right ?_
    rintro ⟨k, hk, ha, hlt, hnew⟩
    exact ⟨w, _, n, k, hf, hop, rfl, hk, ha, hlt, hnew⟩

/-- Settles O37: each of the three ways to raise is at its own place in the step, and rules the other two out. -/
theorem faultsComeInOrder : Obligations.FaultsComeInOrder := by
  intro s t f h
  rcases step_raised_cases h with ⟨hgt, rfl, -⟩ | ⟨w, r, hf, hd, hp, rfl, -⟩ | ⟨w, i, hf, hd, hraises⟩
  · have hnone (w : Word) : fetch s ≠ some w := by rw [fetch_of_gt hgt]; nofun
    exact ⟨fun _ => ⟨rfl, rfl⟩, fun w _ hw => absurd hw (hnone w), fun w _ hw => absurd hw (hnone w)⟩
  · refine ⟨fun hgt => ?_, fun w' r' hw _ => ?_, fun w' i hw hok => ?_⟩
    · cases (fetch_of_gt hgt).symm.trans hf
    · cases hf.symm.trans hw; exact ⟨hp, rfl, rfl⟩
    · cases hf.symm.trans hw; cases hd.symm.trans hok
  · refine ⟨fun hgt => ?_, fun w' r hw herr => ?_, fun w' i' hw hok => ?_⟩
    · cases (fetch_of_gt hgt).symm.trans hf
    · cases hf.symm.trans hw; cases hd.symm.trans herr
    · cases hf.symm.trans hw; cases hd.symm.trans hok
      have hclass : Laws.classOpcode i = opcodeOf w := (fieldsFrom_of_decode hd).opcode
      cases hraises with
      | loadOutOfRange addr n hload hgt => exact ⟨addr, n, hgt, .inl ⟨hclass.symm.trans hload, rfl, rfl⟩⟩
      | storeOutOfRange hoperands hgt =>
        exact ⟨_, _, hgt, .inr ⟨hclass.symm.trans (classOpcode_of_storeOperands hoperands), rfl, rfl⟩⟩

/-- Settles O51: the host's accesses are the core's, as O28 to O30 describe them. -/
theorem hostOperationsFollowTheContract : Obligations.HostOperationsFollowTheContract := by
  intro s i a n v hs
  obtain ⟨hreads, hbytes⟩ := readsAreLittleEndianAndOnlyRangeChecked s a.toNat n
  refine ⟨rfl, BitVec.ofInt_toInt, BitVec.le_toInt _, BitVec.toInt_lt, hreads, fun x hx => (hbytes x hx).2,
    fun hle => ?_, fun hgt => ?_⟩
  · exact ⟨_, State.hostWrite_of_le v hle, rfl, rfl, rfl, rfl, fun k hk => State.readByte_stored v hs hle hk,
      fun b hb => State.readByte_stored_other v hb⟩
  · obtain ⟨hleft, hstatus, -⟩ := failedWritesLeaveOldOrNewBytes s a.toNat n v hs (State.memWrite_eq_none.mpr hgt)
    exact ⟨_, State.hostWrite_of_gt v hgt, hstatus, hleft⟩

end Sys2Proof.Proofs
end

section
/-! SUPPORT. What construction leaves (70_reset_and_hazards.md R300), a zero word's step (R303), and how a run goes
under the host's stop conditions (R306). -/

namespace Sys2Proof.Machine

/-! ## Construction (R300) -/

section
variable (cfg : Config) (image : List Byte) (entryPc : Option Word) (initRegs : Vector Word 32)

/-- The image is cut at the capacity, and reads as zeros after it. -/
theorem readByte_construct {a : Nat} (h : a < cfg.memSize) :
    (State.construct cfg image entryPc initRegs).readByte a = some (image.getD a 0) := by
  have hget := Memory.get_ofBytes 0 (image.take cfg.memSize) a
  rw [Nat.zero_add] at hget
  rw [State.readByte_of_lt (s := State.construct cfg image entryPc initRegs) h, State.construct, hget,
    List.getD_eq_getElem?_getD, List.getD_eq_getElem?_getD, List.getElem?_take_of_lt h]

theorem sound_construct (h : cfg.memSize ≤ Config.maxMemSize) : (State.construct cfg image entryPc initRegs).Sound :=
  ⟨h, Memory.wf_ofBytes _ _, Memory.within_ofBytes (by rw [Nat.zero_add]; exact List.length_take_le _ _)⟩

end

/-! ## Zero words (R303) -/

/-- A step at four bytes of 0x00 only advances the pc under `ILLEGAL_POLICY = NOP`. -/
theorem step_of_zero_word {s : State} (hr : s.status = .running) (hnop : s.cfg.illegalPolicy = .nop)
    (hle : s.pc.toNat + 4 ≤ s.cfg.memSize) (hzero : ∀ k, k < 4 → s.readByte (s.pc.toNat + k) = some 0) :
    step s = .next (s.setPc (s.pc + 4)) := by
  have hget (k : Nat) (hk : k < 4) : s.mem.get (s.pc.toNat + k) = 0 := (State.readByte_eq_some.mp (hzero k hk)).2
  have hfetch : fetch s = some 0 :=
    State.memRead_eq_some.mpr ⟨hle, (Memory.readValue_eq_iff (by decide)).mpr fun k hk =>
      (hget k hk).trans (byteOf_eq_zero (c := 0) (by decide) (Nat.zero_le k)).symm⟩
  have hdecode : decode 0 = .error .opcode := rfl
  rw [step_of_unrecognized hr hfetch hdecode, execUnrecognized_of_nop _ hnop]

/-! ## Runs under the host's stop conditions (R306) -/

/-- A completed step leaves the block running. -/
theorem status_of_step_next {s t : State} (h : step s = .next t) : t.status = .running := by
  obtain ⟨hr, w, -, ⟨r, -, rfl⟩ | ⟨i, -, he⟩⟩ := step_next_cases h
  · exact hr
  · have heffect := exec_effect i s
    rw [he] at heffect
    cases heffect with
    | wrote rd v a => exact (s.writeReg_status rd v).trans hr
    | moved | stored => exact hr

/-- No state before step number `k` of the run from `s` is at `STOP_PC`. -/
def AvoidsStopPc (stopPc : Option Word) (k : Nat) (s : State) : Prop :=
  ∀ j u, j < k → RunsTo j s u → stopPc ≠ some u.pc

theorem AvoidsStopPc.zero (stopPc : Option Word) (s : State) : AvoidsStopPc stopPc 0 s := nofun

theorem AvoidsStopPc.succ {stopPc : Option Word} {k : Nat} {s t : State} (hpc : stopPc ≠ some s.pc)
    (hs : step s = .next t) (h : AvoidsStopPc stopPc k t) : AvoidsStopPc stopPc (k + 1) s := by
  intro j u hj hrun
  cases j with
  | zero => exact runsTo_zero.mp hrun ▸ hpc
  | succ j =>
    obtain ⟨t', ht', hrest⟩ := runsTo_succ.mp hrun
    cases hs.symm.trans ht'
    exact h j u (Nat.lt_of_succ_lt_succ hj) hrest

theorem AvoidsStopPc.one {stopPc : Option Word} {s : State} (hpc : stopPc ≠ some s.pc) : AvoidsStopPc stopPc 1 s := by
  intro j u hj hrun
  obtain rfl := Nat.lt_one_iff.mp hj
  exact runsTo_zero.mp hrun ▸ hpc

/-- How the first `fuel` steps of a run from `s` go, with what they answer: it goes on, the host stops it, or the step
after `k` completed ones raises. -/
inductive RunGoes (stopPc : Option Word) (maxSteps : Option Nat) (fuel : Nat) (s : State) : Option RunEnd → Prop where
  | goesOn {t : State} (hrun : RunsTo fuel s t) (hmax : ∀ n, maxSteps = some n → fuel < n)
      (hpc : AvoidsStopPc stopPc (fuel + 1) s) : RunGoes stopPc maxSteps fuel s none
  | atStopPc {t : State} {k : Nat} (hk : k ≤ fuel) (hrun : RunsTo k s t) (hstop : stopPc = some t.pc)
      (hmax : ∀ n, maxSteps = some n → k ≤ n) (hpc : AvoidsStopPc stopPc k s) :
      RunGoes stopPc maxSteps fuel s (some (.stopPc t))
  | atMaxSteps {t : State} {n : Nat} (hn : n ≤ fuel) (hmax : maxSteps = some n) (hrun : RunsTo n s t)
      (hpc : AvoidsStopPc stopPc (n + 1) s) : RunGoes stopPc maxSteps fuel s (some (.maxSteps t))
  | raised {f : FaultRecord} {t u : State} {k : Nat} (hk : k < fuel) (hrun : RunsTo k s u) (hfault : FaultsWith u f t)
      (hmax : ∀ n, maxSteps = some n → k < n) (hpc : AvoidsStopPc stopPc (k + 1) s) :
      RunGoes stopPc maxSteps fuel s (some (.fault f t))

/-- A bound on the steps left after one step is a bound on the steps. -/
theorem succ_le_of_stepsLeft {maxSteps : Option Nat} {k : Nat} (h0 : maxSteps ≠ some 0)
    (h : ∀ n, maxSteps.map (· - 1) = some n → k ≤ n) : ∀ n, maxSteps = some n → k + 1 ≤ n := by
  rintro n rfl
  have hn : n ≠ 0 := fun e => h0 (congrArg some e)
  have hk : k ≤ n - 1 := h _ rfl
  omega

/-- How a run goes after a completed step is how it goes with that step, one step later. -/
theorem RunGoes.succ {stopPc : Option Word} {maxSteps : Option Nat} {fuel : Nat} {s t : State} {r : Option RunEnd}
    (hpc : stopPc ≠ some s.pc) (h0 : maxSteps ≠ some 0) (hs : step s = .next t)
    (h : RunGoes stopPc (maxSteps.map (· - 1)) fuel t r) : RunGoes stopPc maxSteps (fuel + 1) s r := by
  have hlater {k : Nat} {u : State} (hrun : RunsTo k t u) : RunsTo (k + 1) s u := runsTo_succ.mpr ⟨t, hs, hrun⟩
  cases h with
  | goesOn hrun hmax havoids => exact .goesOn (hlater hrun) (succ_le_of_stepsLeft h0 hmax) (havoids.succ hpc hs)
  | atStopPc hk hrun hstop hmax havoids =>
    exact .atStopPc (Nat.succ_le_succ hk) (hlater hrun) hstop (succ_le_of_stepsLeft h0 hmax) (havoids.succ hpc hs)
  | @atMaxSteps _ n hn hmax hrun havoids =>
    have hmax' : maxSteps = some (n + 1) := by
      obtain ⟨m, rfl, rfl⟩ := Option.map_eq_some_iff.mp hmax
      rw [Nat.sub_add_cancel (Nat.pos_of_ne_zero fun e => h0 (congrArg some e))]
    exact .atMaxSteps (Nat.succ_le_succ hn) hmax' (hlater hrun) (havoids.succ hpc hs)
  | raised hk hrun hfault hmax havoids =>
    exact .raised (Nat.succ_lt_succ hk) (hlater hrun) hfault (succ_le_of_stepsLeft h0 hmax) (havoids.succ hpc hs)

/-- A run that the host stops where it stands has made no step. -/
theorem RunGoes.of_hostStop {stopPc : Option Word} {maxSteps : Option Nat} {s : State} {e : RunEnd} (fuel : Nat)
    (h : hostStop stopPc maxSteps s = some e) : RunGoes stopPc maxSteps fuel s (some e) := by
  rcases hostStop_cases stopPc maxSteps s with ⟨hpc, he⟩ | ⟨hpc, h0, he⟩ | ⟨-, -, he⟩ <;> cases h.symm.trans he
  · exact .atStopPc (Nat.zero_le _) (runsTo_zero.mpr rfl) hpc (fun _ _ => Nat.zero_le _) (.zero _ _)
  · exact .atMaxSteps (Nat.zero_le _) h0 (runsTo_zero.mpr rfl) (.one hpc)

theorem hostStop_eq_none {stopPc : Option Word} {maxSteps : Option Nat} {s : State}
    (h : hostStop stopPc maxSteps s = none) : stopPc ≠ some s.pc ∧ maxSteps ≠ some 0 := by
  rcases hostStop_cases stopPc maxSteps s with ⟨-, he⟩ | ⟨-, -, he⟩ | ⟨hpc, h0, -⟩
  · cases h.symm.trans he
  · cases h.symm.trans he
  · exact ⟨hpc, h0⟩

/-- The four ways a run of a running block goes. -/
theorem runHost_runGoes {stopPc : Option Word} {maxSteps : Option Nat} {s : State} (hr : s.status = .running)
    (fuel : Nat) : RunGoes stopPc maxSteps fuel s (runHost stopPc maxSteps fuel s) := by
  induction fuel generalizing maxSteps s with
  | zero =>
    rw [runHost]
    cases he : hostStop stopPc maxSteps s with
    | some e => exact .of_hostStop 0 he
    | none =>
      obtain ⟨hpc, h0⟩ := hostStop_eq_none he
      exact .goesOn (runsTo_zero.mpr rfl) (succ_le_of_stepsLeft h0 fun _ _ => Nat.zero_le _) (.one hpc)
  | succ fuel ih =>
    cases he : hostStop stopPc maxSteps s with
    | some e => rw [runHost_of_hostStop he]; exact .of_hostStop _ he
    | none =>
      obtain ⟨hpc, h0⟩ := hostStop_eq_none he
      obtain ⟨t, ht⟩ | ⟨f, t, ht⟩ := step_completesOrRaises hr
      · rw [runHost_of_next he ht]
        exact (ih (status_of_step_next ht)).succ hpc h0 ht
      · rw [runHost_of_raised he ht]
        exact .raised (Nat.succ_pos fuel) (runsTo_zero.mpr rfl) ht (succ_le_of_stepsLeft h0 fun _ _ => Nat.zero_le _)
          (.one hpc)

/-- An end that is reached is the end with one more step looked at. -/
theorem runHost_succ_of_eq_some {stopPc : Option Word} {maxSteps : Option Nat} {fuel : Nat} {s : State} {e : RunEnd}
    (h : runHost stopPc maxSteps fuel s = some e) : runHost stopPc maxSteps (fuel + 1) s = some e := by
  induction fuel generalizing maxSteps s with
  | zero => exact runHost_of_hostStop h 1
  | succ fuel ih =>
    cases hstop : hostStop stopPc maxSteps s with
    | some e' =>
      rw [runHost_of_hostStop hstop] at h ⊢
      exact h
    | none =>
      rw [runHost, hstop] at h ⊢
      cases hs : step s with
      | next t => rw [hs] at h; exact ih h
      | fault r =>
        rw [hs] at h
        cases r with
        | raised f left => exact h
        | stuck f => exact h
      | refused r => rw [hs] at h; exact h

theorem runHost_mono {stopPc : Option Word} {maxSteps : Option Nat} {fuel fuel' : Nat} {s : State} {e : RunEnd}
    (hle : fuel ≤ fuel') (h : runHost stopPc maxSteps fuel s = some e) : runHost stopPc maxSteps fuel' s = some e := by
  induction hle with
  | refl => exact h
  | step _ ih => exact runHost_succ_of_eq_some ih

/-- A run has one end. -/
theorem RunEndsWith.unique {stopPc : Option Word} {maxSteps : Option Nat} {s : State} {e e' : RunEnd}
    (h : RunEndsWith stopPc maxSteps s e) (h' : RunEndsWith stopPc maxSteps s e') : e' = e := by
  obtain ⟨fuel, h⟩ := h
  obtain ⟨fuel', h'⟩ := h'
  have hmax := runHost_mono (Nat.le_max_left fuel fuel') h
  exact Option.some.inj ((runHost_mono (Nat.le_max_right fuel fuel') h').symm.trans hmax)

end Sys2Proof.Machine
end

section
/-! The statements of the family 70_reset_and_hazards.md. -/

open Sys2Proof Sys2Proof.Machine

namespace Sys2Proof.Proofs

/-- Settles O47: the fields are those given, and a byte is in range exactly below the capacity. -/
theorem constructionLoadsTheImage : Obligations.ConstructionLoadsTheImage := by
  rintro cfg image entryPc initRegs _ rfl
  refine ⟨rfl, rfl, rfl, ?_, ?_, fun a ha => readByte_construct cfg image entryPc initRegs ha,
    fun a ha => State.readByte_of_ge ha⟩
  · rintro e rfl; rfl
  · rintro rfl; rfl

/-- Settles O41: a construction's memory is an image cut at the capacity, and `State.reset` is a construction. -/
theorem constructionIsSound : Obligations.ConstructionIsSound := by
  refine ⟨?_, fun cfg image entryPc initRegs h => sound_construct cfg image entryPc initRegs h⟩
  obtain ⟨hreset, -⟩ := resetIsADefaultConstruction
  rw [hreset]
  exact sound_construct _ _ _ _ (le_refl _)

/-- Settles O49: the first fetch is at the entry point; it is out of range at any pc where the capacity is 0. -/
theorem entryOutOfRangeFaultsAtOnce : Obligations.EntryOutOfRangeFaultsAtOnce := by
  intro cfg image entryPc initRegs h
  have hgt : cfg.memSize < entryPc.toNat + 4 := by omega
  exact ⟨_, step_of_fetch_none (s := State.construct cfg image (some entryPc) initRegs) rfl (fetch_of_gt hgt)⟩

/-- Settles O50, by induction on the number of words: each zero word's step only advances the pc. -/
theorem zeroWordsRunAsNoOps : Obligations.ZeroWordsRunAsNoOps := by
  intro k
  induction k with
  | zero =>
    intro s _ _ _ _ _
    rw [runsTo_zero, Nat.mul_zero, Nat.add_zero, BitVec.ofNat_toNat, BitVec.setWidth_eq]
  | succ k ih =>
    intro s hr hnop hmax hle hzero
    have hstep := step_of_zero_word hr hnop (by omega) fun j hj => hzero _ (Nat.le_add_right _ _) (by omega)
    have hpc : (s.pc + 4).toNat = (s.pc.toNat + 4) % 4294967296 := BitVec.toNat_add _ _
    have hrun := ih (s.setPc (s.pc + 4)) hr hnop hmax (by simp only [State.setPc_pc, State.setPc_cfg]; omega)
      fun a hge hlt => by
        simp only [State.setPc_pc] at hge hlt
        exact hzero a (by omega) (by omega)
    refine runsTo_succ.mpr ⟨_, hstep, ?_⟩
    have htarget : BitVec.ofNat 32 ((s.pc + 4).toNat + 4 * k) = BitVec.ofNat 32 (s.pc.toNat + 4 * (k + 1)) := by
      apply BitVec.eq_of_toNat_eq
      rw [BitVec.toNat_ofNat, BitVec.toNat_ofNat]
      omega
    exact htarget ▸ hrun

/-- Settles O52: the four ways a run goes are `RunGoes`, and a run that has ended has its one end at any later bound. -/
theorem aRunEndsByAFaultOrByTheHost : Obligations.ARunEndsByAFaultOrByTheHost := by
  intro stopPc maxSteps fuel s hr
  refine ⟨fun e he => ⟨runHost_succ_of_eq_some he, fun e' => RunEndsWith.unique ⟨fuel, he⟩⟩, ?_⟩
  generalize hgoes : runHost stopPc maxSteps fuel s = r
  cases hgoes ▸ runHost_runGoes hr fuel with
  | @goesOn t hrun hmax hpc => exact .inl ⟨t, rfl, hrun, hmax, fun j u hj => hpc j u (Nat.lt_succ_of_le hj)⟩
  | @atStopPc t k hk hrun hstop hmax hpc => exact .inr (.inl ⟨t, k, rfl, hk, hrun, hstop, hmax, hpc⟩)
  | @atMaxSteps t n hn hmax hrun hpc =>
    exact .inr (.inr (.inl ⟨t, n, rfl, hn, hmax, hrun, fun j u hj => hpc j u (Nat.lt_succ_of_le hj)⟩))
  | @raised f t u k hk hrun hfault hmax hpc =>
    exact .inr (.inr (.inr ⟨f, t, u, k, rfl, hk, hrun, hfault, hmax, fun j v hj => hpc j v (Nat.lt_succ_of_le hj)⟩))

end Sys2Proof.Proofs
end
